-- ==== Sys2Proof/Word.lean ====
section
/-! DEFINITION. The word types of the matrix-to-report pipeline block (KRP) and the sizes that the source fixes
(00_scope.md R8, R11; 10_state.md R22 to R35). -/

namespace Sys2Proof

/-- A frame byte or a received wire byte (R12, R25). -/
abbrev Byte := BitVec 8

/-- A command word on CMD (R21, R70). -/
abbrev CmdWord := BitVec 32

/-- The value of DIN or DOUT (R22, R23). -/
abbrev Data := BitVec 64

/-- A wire payload, and the width of RX_VALUE (R8 `PAYLOAD_W`, R27). -/
abbrev Payload := BitVec 32

/-- A primary code, `PCODE_W` = 8 bits (R8, R81; 92_eei_decisions.md D17). -/
abbrev PCode := BitVec 8

/-- A secondary code, `SCODE_W` = 16 bits (R8, R81; 92_eei_decisions.md D17). -/
abbrev SCode := BitVec 16

/-- A layer number as LAYER_L and LAYER_R hold it, 2 bits (R32). -/
abbrev Layer := BitVec 2

/-- One boolean per left position, `N_L` = 30 of them (R8), position p at bit p: the left matrix, or MASK_L (R34, R54, R141). -/
abbrev LeftBits := BitVec 30

/-- One boolean per right position, `N_R` = 29 of them (R8), position p at bit p: the right matrix, or MASK_R (R34, R54, R141). -/
abbrev RightBits := BitVec 29

/-- A wire frame of `FRAME_LEN` = 5 bytes (R8), byte 0 first (R52, R110); also the shape of FR_BUF (R25). -/
abbrev Frame := Vector Byte 5

end Sys2Proof
end

