-- ==== Sys2Proof/Syntax.lean ====
section
/-! DEFINITION. The commands of the block: one constructor of `Instr` per row of spec/opcode_table.json
(30_encoding.md R79), with its operand fields (R72 to R77). -/

namespace Sys2Proof

/-- The SEL field: which report buffer a command names (R76). -/
inductive Sel where
  /-- SEL = 0: RB_P -/
  | primary
  /-- SEL = 1: RB_S -/
  | secondary
  deriving DecidableEq, Repr

/-- The WHICH field of SYN.READ (R77, R84: `LL`, `LR`, `ML`, `MR`). -/
inductive Which where
  /-- WHICH = 0: LAYER_L -/
  | layerL
  /-- WHICH = 1: LAYER_R -/
  | layerR
  /-- WHICH = 2: MASK_L -/
  | maskL
  /-- WHICH = 3: MASK_R -/
  | maskR
  deriving DecidableEq, Repr

/-- A command: one constructor per row of R79, its arguments the fields of its format as they stand in the word. -/
inductive Instr where
  /-- BW.NEW -/
  | bwNew
  /-- BW.GET idx -/
  | bwGet (idx : BitVec 6)
  /-- BW.SET idx, val -/
  | bwSet (idx : BitVec 6) (val : Bool)
  /-- BW.GETRAW -/
  | bwGetraw
  /-- BW.SETRAW -/
  | bwSetraw
  /-- BW.CLEAR -/
  | bwClear
  /-- BW.LDRX -/
  | bwLdrx
  /-- CD.ENC -/
  | cdEnc
  /-- CD.DEC -/
  | cdDec
  /-- FR.RXB byte -/
  | frRxb (byte : Byte)
  /-- FR.RDVAL -/
  | frRdval
  /-- FR.STAT -/
  | frStat
  /-- RB.CLEAR buf -/
  | rbClear (sel : Sel)
  /-- RB.PUSH buf, code -/
  | rbPush (sel : Sel) (code : BitVec 16)
  /-- RB.FILL buf, code, from -/
  | rbFill (sel : Sel) (ix : BitVec 7) (code : BitVec 16)
  /-- RB.LEN buf -/
  | rbLen (sel : Sel)
  /-- RB.READ buf, idx -/
  | rbRead (sel : Sel) (ix : BitVec 7)
  /-- SYN.CYCLE -/
  | synCycle
  /-- SYN.READ which -/
  | synRead (which : Which)
  /-- STAT.READ -/
  | statRead
  deriving DecidableEq, Repr

end Sys2Proof
end

