-- ==== Sys2Proof/WellFormed.lean ====
section
/-! DEFINITION. Which commands have a word: the extra condition of 30_encoding.md R79 on RB.PUSH and RB.FILL. Every
other field is well formed by its type. -/

namespace Sys2Proof

/-- "When SEL = 0 and the command uses CODE, CODE[15:8] must be 0, because a primary code is 8 bits" (R76, R81). -/
def codeFits (sel : Sel) (code : BitVec 16) : Bool :=
  match sel with
  | .primary => code.extractLsb' 8 8 == 0#8
  | .secondary => true

/-- The checks of a command's fields against R76 and R79, one per constructor. -/
def Instr.wellFormed : Instr → Bool
  | .bwNew => true
  | .bwGet _ => true
  | .bwSet _ _ => true
  | .bwGetraw => true
  | .bwSetraw => true
  | .bwClear => true
  | .bwLdrx => true
  | .cdEnc => true
  | .cdDec => true
  | .frRxb _ => true
  | .frRdval => true
  | .frStat => true
  | .rbClear _ => true
  | .rbPush sel code => codeFits sel code
  | .rbFill sel _ code => codeFits sel code
  | .rbLen _ => true
  | .rbRead _ _ => true
  | .synCycle => true
  | .synRead _ => true
  | .statRead => true

end Sys2Proof
end

