-- ==== Sys2Proof/Decode.lean ====
section
/-! DEFINITION. Decoding a command word (30_encoding.md R70 to R83), the encoder that follows the same tables (R84), and
the assembler text of a command (R84). Decoding is total on all 2^32 words and needs no state (R82, R83). -/

namespace Sys2Proof

/-- Why a word is ILLEGAL: the four causes of R80 and R181. The cause is the model's own record; R181 keeps none, and
every cause has the same effect (ERR.ILL). -/
inductive Illegal where
  /-- UNIT is 0x5 to 0xE -/
  | reservedUnit
  /-- OP is not assigned within an assigned unit -/
  | unassignedOp
  /-- a 1 stands in a reserved bit of the command's format -/
  | reservedBit
  /-- SEL = 0 and CODE[15:8] is not 0 -/
  | wideCode
  deriving DecidableEq, Repr

/-! ### Fields (R70, R72 to R78) -/

/-- UNIT = CMD[31:28] (R70). -/
def unitField (w : CmdWord) : Nat := (w.extractLsb' 28 4).toNat

/-- OP = CMD[27:24] (R70). -/
def opField (w : CmdWord) : Nat := (w.extractLsb' 24 4).toNat

/-- IDX = ARG[5:0] (R73). -/
def idxField (w : CmdWord) : BitVec 6 := w.extractLsb' 0 6

/-- VAL = ARG[6] (R74). -/
def valField (w : CmdWord) : Bool := w.getLsbD 6

/-- BYTE = ARG[7:0] (R75). -/
def byteField (w : CmdWord) : Byte := w.extractLsb' 0 8

/-- SEL = ARG[23] (R76). -/
def selField (w : CmdWord) : Sel := if w.getLsbD 23 then .secondary else .primary

/-- IX = ARG[22:16] (R76). -/
def ixField (w : CmdWord) : BitVec 7 := w.extractLsb' 16 7

/-- CODE = ARG[15:0] (R76). -/
def codeField (w : CmdWord) : BitVec 16 := w.extractLsb' 0 16

/-- WHICH = ARG[1:0] (R77). -/
def whichField (w : CmdWord) : Which :=
  if w.getLsbD 1 then (if w.getLsbD 0 then .maskR else .maskL)
  else (if w.getLsbD 0 then .layerR else .layerL)

/-- The extra condition of RB.PUSH and RB.FILL: "SEL = 0 implies CODE[15:8] = 0" (R79, R81). -/
def codeCondition (w : CmdWord) : Bool :=
  w.getLsbD 23 || w.extractLsb' 8 8 == 0#8

/-! ### The opcode table (R79) -/

/-- One row of R79: its match and mask, its extra condition, and the command read from a word that the row matches. -/
structure Row where
  mnemonic : String
  pattern  : CmdWord
  mask     : CmdWord
  extra    : CmdWord → Bool
  read     : CmdWord → Instr

/-- "a word w is the command when `w & mask == match` and the extra condition, if any, holds" (R79). -/
def Row.hits (r : Row) (w : CmdWord) : Bool := w &&& r.mask == r.pattern && r.extra w

/-- No extra condition. -/
def noExtra (_ : CmdWord) : Bool := true

/-- Unit 0x0: the BitWord Set commands. -/
def bwRows : List Row :=
  [ ⟨"BW.NEW",    0x00000000, 0xFFFFFFFF, noExtra, fun _ => .bwNew⟩,
    ⟨"BW.GET",    0x01000000, 0xFFFFFFC0, noExtra, fun w => .bwGet (idxField w)⟩,
    ⟨"BW.SET",    0x02000000, 0xFFFFFF80, noExtra, fun w => .bwSet (idxField w) (valField w)⟩,
    ⟨"BW.GETRAW", 0x03000000, 0xFFFFFFFF, noExtra, fun _ => .bwGetraw⟩,
    ⟨"BW.SETRAW", 0x04000000, 0xFFFFFFFF, noExtra, fun _ => .bwSetraw⟩,
    ⟨"BW.CLEAR",  0x05000000, 0xFFFFFFFF, noExtra, fun _ => .bwClear⟩,
    ⟨"BW.LDRX",   0x06000000, 0xFFFFFFFF, noExtra, fun _ => .bwLdrx⟩ ]

/-- Units 0x1 and 0x2: the wire codec and the receive framer. -/
def wireRows : List Row :=
  [ ⟨"CD.ENC",   0x10000000, 0xFFFFFFFF, noExtra, fun _ => .cdEnc⟩,
    ⟨"CD.DEC",   0x11000000, 0xFFFFFFFF, noExtra, fun _ => .cdDec⟩,
    ⟨"FR.RXB",   0x20000000, 0xFFFFFF00, noExtra, fun w => .frRxb (byteField w)⟩,
    ⟨"FR.RDVAL", 0x21000000, 0xFFFFFFFF, noExtra, fun _ => .frRdval⟩,
    ⟨"FR.STAT",  0x22000000, 0xFFFFFFFF, noExtra, fun _ => .frStat⟩ ]

/-- Unit 0x3: the report buffers. -/
def rbRows : List Row :=
  [ ⟨"RB.CLEAR", 0x30000000, 0xFF7FFFFF, noExtra, fun w => .rbClear (selField w)⟩,
    ⟨"RB.PUSH",  0x31000000, 0xFF7F0000, codeCondition, fun w => .rbPush (selField w) (codeField w)⟩,
    ⟨"RB.FILL",  0x32000000, 0xFF000000, codeCondition,
      fun w => .rbFill (selField w) (ixField w) (codeField w)⟩,
    ⟨"RB.LEN",   0x33000000, 0xFF7FFFFF, noExtra, fun w => .rbLen (selField w)⟩,
    ⟨"RB.READ",  0x34000000, 0xFF00FFFF, noExtra, fun w => .rbRead (selField w) (ixField w)⟩ ]

/-- Units 0x4 and 0xF: the synthesizer and the status command. -/
def synRows : List Row :=
  [ ⟨"SYN.CYCLE", 0x40000000, 0xFFFFFFFF, noExtra, fun _ => .synCycle⟩,
    ⟨"SYN.READ",  0x41000000, 0xFFFFFFFC, noExtra, fun w => .synRead (whichField w)⟩,
    ⟨"STAT.READ", 0xF0000000, 0xFFFFFFFF, noExtra, fun _ => .statRead⟩ ]

/-- The complete command set, in the order of R79. -/
def opcodeTable : List Row := bwRows ++ wireRows ++ rbRows ++ synRows

/-! ### The decoder (R82) -/

/-- How many operations a unit has, its OPs being 0 up to this number; 0 for a reserved unit (R71, R80). -/
def assignedOps (unit : Nat) : Nat :=
  match unit with
  | 0x0 => 7
  | 0x1 => 2
  | 0x2 => 3
  | 0x3 => 5
  | 0x4 => 2
  | 0xF => 1
  | _ => 0

/-- The cause of R80 that makes an illegal word illegal, the first that applies in R80's own order. -/
def illegalCause (w : CmdWord) : Illegal :=
  if assignedOps (unitField w) = 0 then .reservedUnit
  else if assignedOps (unitField w) ≤ opField w then .unassignedOp
  else if opcodeTable.any (fun r => w &&& r.mask == r.pattern) then .wideCode
  else .reservedBit

/-- The decoding procedure of R82: the first row of the table that the word hits, or ILLEGAL by name. -/
def decode (w : CmdWord) : Except Illegal Instr :=
  match opcodeTable.find? (·.hits w) with
  | some r => .ok (r.read w)
  | none => .error (illegalCause w)

/-! ### The encoder (R84) -/

/-- SEL as it stands in bit 23 (R76). -/
def selBits : Sel → CmdWord
  | .primary => 0x00000000
  | .secondary => 0x00800000

/-- WHICH as it stands in bits 1:0 (R77). -/
def whichBits : Which → CmdWord
  | .layerL => 0
  | .layerR => 1
  | .maskL => 2
  | .maskR => 3

/-- The word of a command: the column "encodes to" of R84. -/
def encode : Instr → CmdWord
  | .bwNew => 0x00000000
  | .bwGet idx => 0x01000000 ||| idx.setWidth 32
  | .bwSet idx val => 0x02000000 ||| (BitVec.ofBool val).setWidth 32 <<< 6 ||| idx.setWidth 32
  | .bwGetraw => 0x03000000
  | .bwSetraw => 0x04000000
  | .bwClear => 0x05000000
  | .bwLdrx => 0x06000000
  | .cdEnc => 0x10000000
  | .cdDec => 0x11000000
  | .frRxb byte => 0x20000000 ||| byte.setWidth 32
  | .frRdval => 0x21000000
  | .frStat => 0x22000000
  | .rbClear sel => 0x30000000 ||| selBits sel
  | .rbPush sel code => 0x31000000 ||| selBits sel ||| code.setWidth 32
  | .rbFill sel ix code => 0x32000000 ||| selBits sel ||| ix.setWidth 32 <<< 16 ||| code.setWidth 32
  | .rbLen sel => 0x33000000 ||| selBits sel
  | .rbRead sel ix => 0x34000000 ||| selBits sel ||| ix.setWidth 32 <<< 16
  | .synCycle => 0x40000000
  | .synRead which => 0x41000000 ||| whichBits which
  | .statRead => 0xF0000000

/-! ### The assembler text (R84) -/

/-- `buf` of R84. -/
def selText : Sel → String
  | .primary => "P"
  | .secondary => "S"

/-- `which` of R84. -/
def whichText : Which → String
  | .layerL => "LL"
  | .layerR => "LR"
  | .maskL => "ML"
  | .maskR => "MR"

/-- One command in the syntax of R84, its fields in decimal. -/
def assembly : Instr → String
  | .bwNew => "BW.NEW"
  | .bwGet idx => "BW.GET " ++ toString idx.toNat
  | .bwSet idx val => "BW.SET " ++ toString idx.toNat ++ ", " ++ toString val.toNat
  | .bwGetraw => "BW.GETRAW"
  | .bwSetraw => "BW.SETRAW"
  | .bwClear => "BW.CLEAR"
  | .bwLdrx => "BW.LDRX"
  | .cdEnc => "CD.ENC"
  | .cdDec => "CD.DEC"
  | .frRxb byte => "FR.RXB " ++ toString byte.toNat
  | .frRdval => "FR.RDVAL"
  | .frStat => "FR.STAT"
  | .rbClear sel => "RB.CLEAR " ++ selText sel
  | .rbPush sel code => "RB.PUSH " ++ selText sel ++ ", " ++ toString code.toNat
  | .rbFill sel ix code =>
    "RB.FILL " ++ selText sel ++ ", " ++ toString code.toNat ++ ", " ++ toString ix.toNat
  | .rbLen sel => "RB.LEN " ++ selText sel
  | .rbRead sel ix => "RB.READ " ++ selText sel ++ ", " ++ toString ix.toNat
  | .synCycle => "SYN.CYCLE"
  | .synRead which => "SYN.READ " ++ whichText which
  | .statRead => "STAT.READ"

/-! ### The host's numbering of an instruction's bits -/

/-- The one word of an instruction whose bits are `w`, of which the opcode table gives `nbits`: its bit 0 is bit 0 of
CMD, and every bit from `nbits` up is 0. None where the number does not fit CMD, which is 32 bits wide (R70). -/
def tableWord (nbits w : Nat) : Option CmdWord :=
  if w % 2 ^ nbits < 2 ^ 32 then some (BitVec.ofNat 32 (w % 2 ^ nbits)) else none

/-- The instruction the decoder reads from an instruction whose bits are `w`; none where it refuses. A command is one
32-bit word on CMD (R70, R83): there are no bytes to lay out. -/
def decodeTableWord (nbits w : Nat) : Option Instr :=
  match tableWord nbits w with
  | some word =>
    match decode word with
    | .ok i => some i
    | .error _ => none
  | none => none

end Sys2Proof
end

