-- ==== Sys2Proof/Config.lean ====
section
/-! DEFINITION. The configuration of the block: the whole table of 00_scope.md R8 as plain data, and the test
configuration TC of 95_test_vectors.md section 0. A configuration is fixed at build time and is not state (10_state.md
R39); what makes one valid (R10) is Machine/ConfigOps.lean's `configValid`. -/

namespace Sys2Proof

/-- A code entry of a layout table: the pair (kind, code) of R9. A code that does not fit its kind's width (R10) cannot
be written in this type. -/
inductive Entry where
  /-- kind P: a primary keyboard usage code -/
  | primary (code : PCode)
  /-- kind S: a secondary ("consumer"/media) usage code -/
  | secondary (code : SCode)
  deriving DecidableEq, Repr

/-- One right function key of `RFK` (R8, R144): its right position and the layer it selects. -/
structure FnKey where
  pos   : Nat
  layer : Layer
  deriving DecidableEq, Repr

/-- The guard of a combination rule: a total Boolean function of (ll, rl, Lm, Rm, MASK_L, MASK_R) (R150), written as a
finite term so that a configuration is plain data. Every such function is the meaning of some guard
(Laws/Guards.lean, `guard_complete`), so no combination rule is shut out. -/
inductive Guard where
  | always
  /-- this cycle's left layer is `l` -/
  | leftLayerIs (l : Layer)
  /-- this cycle's right layer is `l` -/
  | rightLayerIs (l : Layer)
  /-- left position `p` is pressed in the raw matrix Lm -/
  | leftPressed (p : Nat)
  /-- right position `p` is pressed in the raw matrix Rm -/
  | rightPressed (p : Nat)
  /-- MASK_L[p] is set after steps 6 and 7 -/
  | leftBlocked (p : Nat)
  /-- MASK_R[p] is set after steps 6 and 7 -/
  | rightBlocked (p : Nat)
  | neg (g : Guard)
  | both (g h : Guard)
  | either (g h : Guard)
  deriving DecidableEq, Repr

/-- One combination rule of `COMBOS` (R8, R150): a guard and the primary codes it pushes, in order. -/
structure Combo where
  guard : Guard
  codes : List PCode
  deriving DecidableEq, Repr

/-- The configuration table of R8. `PCODE_W`, `SCODE_W`, `N_L`, `N_R`, `FRAME_LEN` and `PAYLOAD_W` are constants
(Word.lean); every other row is a field. -/
structure Config where
  /-- `BW_W`: the width W of the BitWord Set, in bits -/
  bwW     : Nat
  /-- `CAP_P` -/
  capP    : Nat
  /-- `CAP_S` -/
  capS    : Nat
  /-- `SENT_P` -/
  sentP   : PCode
  /-- `SENT_S` -/
  sentS   : SCode
  /-- `NL_R`: the number of right layers -/
  nlR     : Nat
  /-- `LFK`: the left function-key position -/
  lfk     : Nat
  /-- `RFK`: the right function keys in priority order -/
  rfk     : List FnKey
  /-- `LAYOUT_L`, by layer and then by left position -/
  layoutL : List (List Entry)
  /-- `LAYOUT_R`, by layer and then by right position -/
  layoutR : List (List Entry)
  /-- `COMBOS`, in list order -/
  combos  : List Combo
  deriving DecidableEq, Repr

/-- A layout row that gives every one of `n` positions the primary code `base + p`. -/
def Config.primaryRow (n base : Nat) : List Entry :=
  (List.range n).map fun p => .primary (BitVec.ofNat 8 (base + p))

/-- A layout row that gives every one of `n` positions the secondary code `base + p`. -/
def Config.secondaryRow (n base : Nat) : List Entry :=
  (List.range n).map fun p => .secondary (BitVec.ofNat 16 (base + p))

/-- The test configuration TC of 95_test_vectors.md section 0, word for word. It is the spec's own choice for testing,
not the firmware's layout. DESIGN CHOICE (log entry 2): `State.reset` runs under it; no statement rests on its values
for the parameters that R8 leaves OPEN. -/
def Config.tc : Config where
  bwW   := 32
  capP  := 58
  capS  := 4
  sentP := 0x00
  sentS := 0x0000
  nlR   := 4
  lfk   := 0
  rfk   := [⟨28, 2⟩, ⟨27, 3⟩, ⟨26, 1⟩]
  layoutL := [Config.primaryRow 30 0x04, Config.primaryRow 30 0x3A]
  layoutR :=
    [ (Config.primaryRow 29 0x60).set 25 (.secondary 0x00E9),
      Config.primaryRow 29 0x80,
      (Config.primaryRow 29 0xA0).set 24 (.secondary 0x00EA),
      Config.secondaryRow 29 0x0100 ]
  combos := [⟨.both (.leftLayerIs 1) (.both (.rightPressed 0) (.rightPressed 1)), [0xE0, 0xE1]⟩]

end Sys2Proof
end

