-- ==== Sys2Proof/Machine/State.lean ====
section
/-! DEFINITION. The state of the block (10_state.md R22 to R35), the host's pending actions (R20 to R22), the reasons a
step can stop, and the state after reset (R45, R200). The block has no program counter, no general-purpose registers and
no byte-addressed memory (R36, R37, R50). -/

namespace Sys2Proof.Machine

/-- What the host, the only other agent, does to the block (R20): it issues a command on CMD (R21), or it writes DIN
between commands (R22). Reading DOUT changes nothing and is no action here. -/
inductive HostAction where
  /-- the host presents one word on CMD -/
  | command (w : CmdWord)
  /-- the host writes DIN (the line `din v` of R85) -/
  | writeDin (v : Data)
  deriving DecidableEq, Repr

/-- A report buffer of `w`-bit codes: its slots, all CAP of them, and its 7-bit length register (R28). A slot keeps its
value across `clear` (R30). That there are CAP slots and that len is at most CAP is part of the invariant
(Safety.lean, `BlockInv`). -/
structure ReportBuffer (w : Nat) where
  slot : List (BitVec w)
  len  : BitVec 7
  deriving DecidableEq, Repr

/-- The two bits of ERR (R35). -/
inductive ErrFlag where
  /-- ERR[0]: an illegal or reserved command word was issued -/
  | ill
  /-- ERR[1]: an index operand was out of range -/
  | idx
  deriving DecidableEq, Repr

/-- The state. The first two fields are the model's own and not the spec's state: the configuration (R39: a parameter of
the step, which no step changes) and what the host has yet to do. The rest is all of R45. -/
structure State where
  /-- the configuration of R8; no step changes it (log entry 1) -/
  cfg     : Config
  /-- the host's actions still to come, the next one first (log entry 3) -/
  host    : List HostAction
  /-- DIN, the 64-bit data-in register (R22) -/
  din     : Data
  /-- DOUT, the 64-bit data-out register (R23) -/
  dout    : Data
  /-- BW, the backing register of the BitWord Set: W bits, held in the low W bits of a 64-bit cell (R24, log entry 4) -/
  bw      : Data
  /-- FR_BUF[0..4], the framer's byte buffer (R25) -/
  frBuf   : Frame
  /-- FR_FILL, the framer's fill count, 3 bits (R26) -/
  frFill  : BitVec 3
  /-- RX_VALUE, the most recently decoded wire value (R27) -/
  rxValue : Payload
  /-- RB_P, the primary report buffer (R28) -/
  rbP     : ReportBuffer 8
  /-- RB_S, the secondary report buffer (R28) -/
  rbS     : ReportBuffer 16
  /-- LAYER_L, the stored left layer (R32) -/
  layerL  : Layer
  /-- LAYER_R, the stored right layer (R32) -/
  layerR  : Layer
  /-- MASK_L[p] at bit p (R34) -/
  maskL   : LeftBits
  /-- MASK_R[p] at bit p (R34) -/
  maskR   : RightBits
  /-- ERR: bit 0 is ERR.ILL, bit 1 is ERR.IDX (R35) -/
  err     : BitVec 2
  deriving DecidableEq, Repr

/-- Why the machine stops with a fault. The block's own errors (ILL, IDX) do not stop it: they set a sticky bit of ERR
and the block goes on (R181, R182, R190). -/
inductive Fault where
  /-- A rule names an array element that the state does not hold: FR_BUF[FR_FILL] with FR_FILL above 4 (FR.RXB), or a
  slot below CAP that the buffer's slot list lacks (RB.READ). No state that meets the invariant has one (R26, R28), so
  no run reaches it. Safe. Raised by `execFrRxb` and `execRbRead`. -/
  | absentElement
  deriving DecidableEq, Repr

/-- Why a step has no meaning. -/
inductive Refusal where
  /-- An instruction whose arm of `exec` has no meaning yet. Raised by no arm of this model. Safe. -/
  | notModelled (mnemonic : String)
  /-- The configuration breaks R10: "The model is not defined for an invalid configuration and must refuse it". Raised
  by `step`. Safe. -/
  | invalidConfig
  /-- SYN.CYCLE under a configuration that R10 does not allow it with: an invalid one, or one with `BW_W` below 29
  (R10, R140; 92_eei_decisions.md D8). Raised by `execSynCycle`. Safe. -/
  | cycleConfig
  deriving DecidableEq, Repr

/-- What a step answers. -/
abbrev Result := Host.Outcome State Fault Refusal

/-- A report buffer after reset: "len = 0 and every slot holds its kind's sentinel" (R31, R45). -/
def ReportBuffer.reset {w : Nat} (cap : Nat) (sentinel : BitVec w) : ReportBuffer w where
  slot := List.replicate cap sentinel
  len  := 0

/-- The block right after reset under the configuration `c` (R45, R200). The host has not issued anything yet. -/
def State.resetWith (c : Config) : State where
  cfg     := c
  host    := []
  din     := 0
  dout    := 0
  bw      := 0
  frBuf   := Vector.replicate 5 0
  frFill  := 0
  rxValue := 0
  rbP     := ReportBuffer.reset c.capP c.sentP
  rbS     := ReportBuffer.reset c.capS c.sentS
  layerL  := 0
  layerR  := 0
  maskL   := 0
  maskR   := 0
  err     := 0

/-- The block right after reset under the test configuration TC. DESIGN CHOICE (log entry 2): R8 leaves `LFK`, `RFK`,
`NL_R`, the layout tables and `COMBOS` open; statements are about `State.resetWith` of every valid configuration. -/
def State.reset : State := State.resetWith Config.tc

end Sys2Proof.Machine
end

