-- ==== Sys2Proof/Machine/Flags.lean ====
section
/-! DEFINITION. The flags of ERR (10_state.md R35; 60_exceptions.md R181 to R183), the block's only status register. It
has no condition codes (R38). -/

namespace Sys2Proof.Machine

/-- The bit of ERR that a flag is: ILL is bit 0, IDX is bit 1 (R35). -/
def errBit : ErrFlag → BitVec 2
  | .ill => 0b01
  | .idx => 0b10

/-- ERR with one flag set: the bits are sticky, so the other stays as it was and a second error of the same kind leaves
its bit 1 (R183). -/
def setErrFlag (err : BitVec 2) (e : ErrFlag) : BitVec 2 := err ||| errBit e

end Sys2Proof.Machine
end

