-- ==== Sys2Proof/Machine/Operands.lean ====
section
/-! DEFINITION. Operand forms: how a command takes its operands from the registers and how a result is laid out in one
(10_state.md R22 to R24; 20_memory.md R53, R54, R57; 30_encoding.md R78). Everything is zero-extended; nothing is
signed, scaled or shifted (R13, R78). -/

namespace Sys2Proof.Machine

/-- The low `width` bits of a 64-bit value, the rest 0: `v[width-1:0]` zero-extended (R12, R22, R24). -/
def lowBits (width : Nat) (v : Data) : Data := (v.setWidth width).setWidth 64

/-- The value of the W-bit register BW, zero-extended to 64 bits (R24). -/
def bwValue (s : State) : Data := lowBits s.cfg.bwW s.bw

/-- A boolean zero-extended to 64 bits (R101). -/
def boolData (b : Bool) : Data := (BitVec.ofBool b).setWidth 64

/-- DIN[31:0], the operand of CD.ENC (R22, R113). -/
def dinPayload (s : State) : Payload := s.din.setWidth 32

/-- Five bytes in 40 bits, byte i at bits [8i+7 : 8i] (R53). -/
def packFrame (f : Frame) : BitVec 40 := f[4] ++ f[3] ++ f[2] ++ f[1] ++ f[0]

/-- The five bytes at bits [8i+7 : 8i] of a 64-bit value, i from 0 to 4 (R53, R114). -/
def unpackFrame (d : Data) : Frame :=
  #v[d.extractLsb' 0 8, d.extractLsb' 8 8, d.extractLsb' 16 8, d.extractLsb' 24 8, d.extractLsb' 32 8]

/-- The left matrix of this cycle: Lm[p] = DIN[p] for p below 30 (R54, R141). -/
def leftMatrix (s : State) : LeftBits := s.din.setWidth 30

/-- The right matrix of this cycle: Rm[p] = BW[p] for p below 29 (R54, R141). -/
def rightMatrix (s : State) : RightBits := (bwValue s).setWidth 29

/-- `{1, v}` zero-extended to 64 bits: bit 32 says that a frame completed, bits 31:0 are its value (R116). -/
def emittedData (v : Payload) : Data := (1#1 ++ v).setWidth 64

/-- `A[p] <- false` on packed booleans. -/
def clearBit {n : Nat} (v : BitVec n) (p : Nat) : BitVec n := v &&& ~~~(1#n <<< p)

/-- `CAP[SEL]` (R28). -/
def capOf (c : Config) : Sel → Nat
  | .primary => c.capP
  | .secondary => c.capS

/-- `RB[SEL].len` (R28). -/
def bufferLen (s : State) : Sel → BitVec 7
  | .primary => s.rbP.len
  | .secondary => s.rbS.len

/-- `RB[SEL].slot[i]`, zero-extended to 64 bits; none where the slot list has no element i (R28, R137). -/
def slotData (s : State) (sel : Sel) (i : Nat) : Option Data :=
  match sel with
  | .primary => (s.rbP.slot[i]?).map (·.setWidth 64)
  | .secondary => (s.rbS.slot[i]?).map (·.setWidth 64)

/-- CODE[7:0], the code that a primary buffer takes (R134, R135). -/
def primaryCode (code : BitVec 16) : PCode := code.setWidth 8

end Sys2Proof.Machine
end

