-- ==== Sys2Proof/Machine/Ops.lean ====
section
/-! DEFINITION. The named operations that the meanings share: register updates, taking one of the block's two errors,
the host's own actions, the wire codec (41_wire_codec.md R111, R112) and the report buffer (42_report_buffer.md R130 to
R132). -/

namespace Sys2Proof.Machine

/-! ### Register updates (R14: `R <- v`) -/

def State.setHost (s : State) (v : List HostAction) : State := { s with host := v }
def State.setDin (s : State) (v : Data) : State := { s with din := v }
def State.setDout (s : State) (v : Data) : State := { s with dout := v }
/-- BW takes the low W bits of the value (R24). -/
def State.setBw (s : State) (v : Data) : State := { s with bw := lowBits s.cfg.bwW v }
def State.setFrBuf (s : State) (v : Frame) : State := { s with frBuf := v }
def State.setFrFill (s : State) (v : BitVec 3) : State := { s with frFill := v }
def State.setRxValue (s : State) (v : Payload) : State := { s with rxValue := v }
def State.setRbP (s : State) (v : ReportBuffer 8) : State := { s with rbP := v }
def State.setRbS (s : State) (v : ReportBuffer 16) : State := { s with rbS := v }
def State.setLayerL (s : State) (v : Layer) : State := { s with layerL := v }
def State.setLayerR (s : State) (v : Layer) : State := { s with layerR := v }
def State.setMaskL (s : State) (v : LeftBits) : State := { s with maskL := v }
def State.setMaskR (s : State) (v : RightBits) : State := { s with maskR := v }
def State.setErr (s : State) (v : BitVec 2) : State := { s with err := v }

/-! ### Taking an error -/

/-- `raise ILL()` and `raise IDX()`: the bit of ERR is set and nothing else changes; the command completes and the block
accepts the next one (R15, R181, R182). There is no saved state, no vector and no return (R189, R190). -/
def raise (e : ErrFlag) (s : State) : State := s.setErr (setErrFlag s.err e)

/-! ### The host's actions (R20 to R22, R62) -/

/-- The host's next action, and the state in which it no longer waits; none when the host has nothing to do. -/
def takeAction (s : State) : Option (HostAction × State) :=
  match s.host with
  | [] => none
  | a :: rest => some (a, s.setHost rest)

/-- The host writes DIN (R22). -/
def hostWriteDin (v : Data) (s : State) : State := s.setDin v

/-- The block with no command to perform: nothing changes (R21, R207, R210). -/
def idle (s : State) : State := s

/-- The host presents the word `w` on CMD before anything else it has to do (R21). -/
def presentCommand (w : CmdWord) (s : State) : State := s.setHost (.command w :: s.host)

/-! ### The wire codec (R111, R112) -/

/-- `(v >> (7*i)) & 0x7F`, the payload bits of frame byte i (R111). -/
def frameGroup (v : Payload) (i : Nat) : Byte := ((v >>> (7 * i)) &&& 0x7F).setWidth 8

/-- `encode(v)` (R111). -/
def encodeFrame (v : Payload) : Frame :=
  #v[frameGroup v 0 ||| 0x80, frameGroup v 1, frameGroup v 2, frameGroup v 3, frameGroup v 4]

/-- `zext_35(b & 0x7F) << (7*i)` (R112). -/
def payloadGroup (b : Byte) (i : Nat) : BitVec 35 := (b &&& 0x7F).setWidth 35 <<< (7 * i)

/-- `decode(f)`: the OR formed in 35 bits, its low 32 bits taken, the markers not read (R112; D13). -/
def decodeFrame (f : Frame) : Payload :=
  (payloadGroup f[0] 0 ||| payloadGroup f[1] 1 ||| payloadGroup f[2] 2 ||| payloadGroup f[3] 3 |||
    payloadGroup f[4] 4).setWidth 32

/-! ### The report buffer (R130 to R132) -/

/-- `B.clear()`: the length is 0 and every slot stays (R130). -/
def ReportBuffer.clear {w : Nat} (b : ReportBuffer w) : ReportBuffer w := { b with len := 0 }

/-- `B.push(c)` on a buffer of capacity `cap`: the code is appended, or silently dropped when the buffer is full
(R131). -/
def ReportBuffer.push {w : Nat} (cap : Nat) (c : BitVec w) (b : ReportBuffer w) : ReportBuffer w :=
  if b.len.toNat < cap then { slot := b.slot.set b.len.toNat c, len := b.len + 1 } else b

/-- `B.fill(c, f)` on a buffer of capacity `cap`: every slot of [f, cap) takes the code, and the length stays (R132). -/
def ReportBuffer.fill {w : Nat} (cap : Nat) (c : BitVec w) (f : Nat) (b : ReportBuffer w) : ReportBuffer w :=
  { b with slot := (List.range' f (cap - f)).foldl (fun slots i => slots.set i c) b.slot }

/-- `RB_P.push(c)` (R131). -/
def pushPrimary (c : PCode) (s : State) : State := s.setRbP (s.rbP.push s.cfg.capP c)

/-- `RB_S.push(c)` (R131). -/
def pushSecondary (c : SCode) (s : State) : State := s.setRbS (s.rbS.push s.cfg.capS c)

/-- `RB_P.fill(c, f)` (R132). -/
def fillPrimary (c : PCode) (f : Nat) (s : State) : State := s.setRbP (s.rbP.fill s.cfg.capP c f)

/-- `RB_S.fill(c, f)` (R132). -/
def fillSecondary (c : SCode) (f : Nat) (s : State) : State := s.setRbS (s.rbS.fill s.cfg.capS c f)

/-- `RB[SEL].clear()` (R130). -/
def clearBuffer (sel : Sel) (s : State) : State :=
  match sel with
  | .primary => s.setRbP s.rbP.clear
  | .secondary => s.setRbS s.rbS.clear

end Sys2Proof.Machine
end

