-- ==== Sys2Proof/Machine/BitWord.lean ====
section
/-! DEFINITION. The BitWord Set commands (40_bitword.md R100 to R107). -/

namespace Sys2Proof.Machine

/-- `BW[idx] <- val`, the other bits as they are: `(BW & ~(1 << IDX)) | (zext_W(VAL) << IDX)` (R102). -/
def withBit (v : Data) (idx : Nat) (val : Bool) : Data := clearBit v idx ||| (boolData val <<< idx)

/-- BW.NEW: `BW <- DIN[W-1:0]` (R100). -/
def execBwNew (s : State) : Result := .next (s.setBw s.din)

/-- BW.GET: `DOUT <- zext_64(BW[IDX])`; IDX >= W raises IDX (R101). -/
def execBwGet (idx : BitVec 6) (s : State) : Result :=
  if s.cfg.bwW ≤ idx.toNat then .next (raise .idx s)
  else .next (s.setDout (boolData ((bwValue s).getLsbD idx.toNat)))

/-- BW.SET: bit IDX of BW takes VAL; IDX >= W raises IDX (R102). -/
def execBwSet (idx : BitVec 6) (val : Bool) (s : State) : Result :=
  if s.cfg.bwW ≤ idx.toNat then .next (raise .idx s)
  else .next (s.setBw (withBit (bwValue s) idx.toNat val))

/-- BW.GETRAW: `DOUT <- zext_64(BW)` (R103). -/
def execBwGetraw (s : State) : Result := .next (s.setDout (bwValue s))

/-- BW.SETRAW: `BW <- DIN[W-1:0]` (R104). -/
def execBwSetraw (s : State) : Result := .next (s.setBw s.din)

/-- BW.CLEAR: `BW <- 0` (R105). -/
def execBwClear (s : State) : Result := .next (s.setBw 0)

/-- BW.LDRX: BW takes RX_VALUE, truncated to W bits when W < 32 and zero-extended when W = 64 (R106). -/
def execBwLdrx (s : State) : Result := .next (s.setBw (s.rxValue.setWidth 64))

end Sys2Proof.Machine
end

