-- ==== Sys2Proof/Machine/Framer.lean ====
section
/-! DEFINITION. The receive framer commands (41_wire_codec.md R116 to R120). -/

namespace Sys2Proof.Machine

/-- A start byte: the frame begins anew with it, whether one was in progress or not (R116). -/
def frameStart (b : Byte) (s : State) : State :=
  ((s.setFrBuf (s.frBuf.setIfInBounds 0 b)).setFrFill 1).setDout 0

/-- A continuation byte that does not complete the frame (R116). -/
def frameContinue (b : Byte) (s : State) : State :=
  ((s.setFrBuf (s.frBuf.setIfInBounds s.frFill.toNat b)).setFrFill (s.frFill + 1)).setDout 0

/-- The fifth byte: the frame is decoded into RX_VALUE and emitted in DOUT, and the framer is idle again (R116). -/
def frameComplete (b : Byte) (s : State) : State :=
  let buf := s.frBuf.setIfInBounds s.frFill.toNat b
  let v := decodeFrame buf
  (((s.setFrBuf buf).setFrFill 0).setRxValue v).setDout (emittedData v)

/-- FR.RXB: receive one wire byte (R116). A fill count above 4, which R26 rules out between commands, names a byte that
FR_BUF does not have. -/
def execFrRxb (byte : Byte) (s : State) : Result :=
  if byte.getLsbD 7 then .next (frameStart byte s)
  else if s.frFill.toNat = 0 then .next (s.setDout 0)
  else if s.frFill.toNat + 1 < 5 then .next (frameContinue byte s)
  else if s.frFill.toNat + 1 = 5 then .next (frameComplete byte s)
  else .fault .absentElement

/-- FR.RDVAL: `DOUT <- zext_64(RX_VALUE)` (R117). -/
def execFrRdval (s : State) : Result := .next (s.setDout (s.rxValue.setWidth 64))

/-- FR.STAT: FR_FILL at DOUT[2:0], 0 at DOUT[7:3], FR_BUF[i] at DOUT[8i+15 : 8i+8] (R118). -/
def execFrStat (s : State) : Result :=
  .next (s.setDout ((packFrame s.frBuf ++ 0b00000#5 ++ s.frFill).setWidth 64))

end Sys2Proof.Machine
end

