-- ==== Sys2Proof/Machine/ReportBuffers.lean ====
section
/-! DEFINITION. The report buffer commands (42_report_buffer.md R133 to R139). -/

namespace Sys2Proof.Machine

/-- RB.CLEAR (R133). -/
def execRbClear (sel : Sel) (s : State) : Result := .next (clearBuffer sel s)

/-- RB.PUSH: a full buffer drops the code without an error (R134). -/
def execRbPush (sel : Sel) (code : BitVec 16) (s : State) : Result :=
  match sel with
  | .primary => .next (pushPrimary (primaryCode code) s)
  | .secondary => .next (pushSecondary code s)

/-- RB.FILL: IX is the `from_index`; IX >= CAP writes nothing (R135). -/
def execRbFill (sel : Sel) (ix : BitVec 7) (code : BitVec 16) (s : State) : Result :=
  match sel with
  | .primary => .next (fillPrimary (primaryCode code) ix.toNat s)
  | .secondary => .next (fillSecondary code ix.toNat s)

/-- RB.LEN: `DOUT <- zext_64(RB[SEL].len)` (R136). -/
def execRbLen (sel : Sel) (s : State) : Result := .next (s.setDout ((bufferLen s sel).setWidth 64))

/-- RB.READ: `DOUT <- zext_64(RB[SEL].slot[IX])`; IX >= CAP raises IDX (R137). -/
def execRbRead (sel : Sel) (ix : BitVec 7) (s : State) : Result :=
  if capOf s.cfg sel ≤ ix.toNat then .next (raise .idx s)
  else
    match slotData s sel ix.toNat with
    | some v => .next (s.setDout v)
    | none => .fault .absentElement

end Sys2Proof.Machine
end

