-- ==== Sys2Proof/Machine/Status.lean ====
section
/-! DEFINITION. The status command (44_status.md R170, R171). -/

namespace Sys2Proof.Machine

/-- STAT.READ: `DOUT <- zext_64(ERR)`; reading does not clear it (R170). -/
def execStatRead (s : State) : Result := .next (s.setDout (s.err.setWidth 64))

end Sys2Proof.Machine
end

