-- ==== Sys2Proof/Machine/ConfigOps.lean ====
section
/-! DEFINITION. Reading the configuration (00_scope.md R8 to R10; 10_state.md R39; 20_memory.md R51): when it is valid,
the layout lookups, and the meaning of a combination rule's guard. -/

namespace Sys2Proof.Machine

/-- The widths a BitWord Set may have (R8, R10). -/
def widthValid (c : Config) : Bool :=
  c.bwW == 8 || c.bwW == 16 || c.bwW == 32 || c.bwW == 64

/-- `CAP_P` and `CAP_S` are in 1..127 (R10). -/
def capsValid (c : Config) : Bool :=
  decide (1 ≤ c.capP) && decide (c.capP ≤ 127) && decide (1 ≤ c.capS) && decide (c.capS ≤ 127)

/-- `LFK` is below 30, `NL_R` in 2..4, and `RFK` has at most 3 entries, each with a position below 29 and a layer below
`NL_R` (R10). -/
def keysValid (c : Config) : Bool :=
  decide (c.lfk < 30) && decide (2 ≤ c.nlR) && decide (c.nlR ≤ 4) && decide (c.rfk.length ≤ 3) &&
    c.rfk.all fun k => decide (k.pos < 29) && decide (k.layer.toNat < c.nlR)

/-- The layout tables are defined for exactly their layers and positions (R8, R10). -/
def layoutsValid (c : Config) : Bool :=
  c.layoutL.length == 2 && c.layoutL.all (·.length == 30) &&
    (c.layoutR.length == c.nlR && c.layoutR.all (·.length == 29))

/-- A valid configuration (R10). The clauses on sentinels and code widths hold by the types of Config.lean; the clause
on SYN.CYCLE is `cycleAllowed`. -/
def configValid (c : Config) : Bool :=
  widthValid c && capsValid c && keysValid c && layoutsValid c

/-- A configuration under which SYN.CYCLE may be issued: a valid one with `BW_W >= N_R` (R10, R140). -/
def cycleAllowed (c : Config) : Bool :=
  configValid c && decide (29 ≤ c.bwW)

/-- `LAYOUT_L[layer][position]`. A valid configuration has an entry wherever SYN.CYCLE looks (R188). -/
def lookupLeft (c : Config) (layer : Layer) (p : Nat) : Option Entry :=
  (c.layoutL[layer.toNat]?).bind fun row => row[p]?

/-- `LAYOUT_R[layer][position]`. A valid configuration has an entry wherever SYN.CYCLE looks (R188). -/
def lookupRight (c : Config) (layer : Layer) (p : Nat) : Option Entry :=
  (c.layoutR[layer.toNat]?).bind fun row => row[p]?

/-- What a guard may read: (ll, rl, Lm, Rm, MASK_L, MASK_R), the masks as steps 6 and 7 left them (R150). -/
structure CycleView where
  ll    : Layer
  rl    : Layer
  left  : LeftBits
  right : RightBits
  maskL : LeftBits
  maskR : RightBits
  deriving DecidableEq, Repr

/-- The meaning of a guard (R150). -/
def guardHolds : Guard → CycleView → Bool
  | .always, _ => true
  | .leftLayerIs l, v => v.ll == l
  | .rightLayerIs l, v => v.rl == l
  | .leftPressed p, v => v.left.getLsbD p
  | .rightPressed p, v => v.right.getLsbD p
  | .leftBlocked p, v => v.maskL.getLsbD p
  | .rightBlocked p, v => v.maskR.getLsbD p
  | .neg g, v => !guardHolds g v
  | .both g h, v => guardHolds g v && guardHolds h v
  | .either g h, v => guardHolds g v || guardHolds h v

end Sys2Proof.Machine
end

