-- ==== Sys2Proof/Machine/Synthesizer.lean ====
section
/-! DEFINITION. The layer resolver and report synthesizer (43_synthesizer.md R140 to R152), in the source's step
order. -/

namespace Sys2Proof.Machine

/-- Step 1's clearing of both buffers (R142). -/
def clearBoth (s : State) : State := clearBuffer .secondary (clearBuffer .primary s)

/-- Step 2: the left layer is 1 while the left function key is pressed (R143). -/
def leftLayer (c : Config) (left : LeftBits) : Layer := if left.getLsbD c.lfk then 1 else 0

/-- The layer of the first pressed function key of a list in priority order, 0 if none is pressed (R144). -/
def firstKeyLayer : List FnKey → RightBits → Layer
  | [], _ => 0
  | k :: ks, right => if right.getLsbD k.pos then k.layer else firstKeyLayer ks right

/-- Step 3: the cross-half override, else the right function keys (R144). -/
def rightLayer (c : Config) (ll : Layer) (right : RightBits) : Layer :=
  if ll == 1 then 1 else firstKeyLayer c.rfk right

/-- Step 4: on a change of the left layer it is stored and the left matrix becomes the left block mask (R145). -/
def snapshotLeft (ll : Layer) (left : LeftBits) (s : State) : State :=
  if ll == s.layerL then s else (s.setLayerL ll).setMaskL left

/-- Step 5: on a change of the right layer it is stored and the right matrix becomes the right block mask (R146). -/
def snapshotRight (rl : Layer) (right : RightBits) (s : State) : State :=
  if rl == s.layerR then s else (s.setLayerR rl).setMaskR right

/-- A looked-up code goes to the buffer of its kind (R147). A valid configuration has an entry wherever a cycle looks
(R188); where there is none, nothing is pushed. -/
def emit (e : Option Entry) (s : State) : State :=
  match e with
  | some (.primary c) => pushPrimary c s
  | some (.secondary c) => pushSecondary c s
  | none => s

/-- Step 6 at one left position: blocked and pressed is skipped, pressed emits, released unblocks (R148). -/
def scanLeftAt (ll : Layer) (left : LeftBits) (s : State) (p : Nat) : State :=
  if left.getLsbD p then
    if s.maskL.getLsbD p then s else emit (lookupLeft s.cfg ll p) s
  else s.setMaskL (clearBit s.maskL p)

/-- Step 6: every left position in ascending order (R148). -/
def scanLeft (ll : Layer) (left : LeftBits) (s : State) : State :=
  (List.range 30).foldl (scanLeftAt ll left) s

/-- Step 7 at one right position (R149). -/
def scanRightAt (rl : Layer) (right : RightBits) (s : State) (p : Nat) : State :=
  if right.getLsbD p then
    if s.maskR.getLsbD p then s else emit (lookupRight s.cfg rl p) s
  else s.setMaskR (clearBit s.maskR p)

/-- Step 7: every right position in ascending order (R149). -/
def scanRight (rl : Layer) (right : RightBits) (s : State) : State :=
  (List.range 29).foldl (scanRightAt rl right) s

/-- Several primary codes pushed in list order (R150). -/
def pushAllPrimary (codes : List PCode) (s : State) : State := codes.foldl (fun t c => pushPrimary c t) s

/-- Step 8 for one combination rule (R150). -/
def applyCombo (ll rl : Layer) (left : LeftBits) (right : RightBits) (s : State) (k : Combo) : State :=
  if guardHolds k.guard ⟨ll, rl, left, right, s.maskL, s.maskR⟩ then pushAllPrimary k.codes s else s

/-- Step 8: the combination rules in list order (R150). -/
def combinations (ll rl : Layer) (left : LeftBits) (right : RightBits) (s : State) : State :=
  s.cfg.combos.foldl (applyCombo ll rl left right) s

/-- Step 9 for the primary buffer: a report shorter than the one before gets a sentinel tail (R151). -/
def sentinelFillPrimary (prev : BitVec 7) (s : State) : State :=
  if s.rbP.len.toNat < prev.toNat then fillPrimary s.cfg.sentP s.rbP.len.toNat s else s

/-- Step 9 for the secondary buffer (R151). -/
def sentinelFillSecondary (prev : BitVec 7) (s : State) : State :=
  if s.rbS.len.toNat < prev.toNat then fillSecondary s.cfg.sentS s.rbS.len.toNat s else s

/-- One cycle: the nine steps of R140, with this cycle's matrices captured once (R141) and the two `prevLen` local to
the cycle (R142). -/
def synCycle (s : State) : State :=
  let left := leftMatrix s
  let right := rightMatrix s
  let ll := leftLayer s.cfg left
  let rl := rightLayer s.cfg ll right
  let blocked := snapshotRight rl right (snapshotLeft ll left (clearBoth s))
  let scanned := scanRight rl right (scanLeft ll left blocked)
  let combined := combinations ll rl left right scanned
  sentinelFillSecondary s.rbS.len (sentinelFillPrimary s.rbP.len combined)

/-- SYN.CYCLE (R140). It needs a valid configuration with W >= 29 (R10); any other is refused (92_eei_decisions.md
D8, D34). -/
def execSynCycle (s : State) : Result :=
  if cycleAllowed s.cfg then .next (synCycle s) else .refused .cycleConfig

/-- SYN.READ: the layer or the mask that WHICH names, zero-extended, position p of a mask at bit p (R152). -/
def execSynRead (which : Which) (s : State) : Result :=
  match which with
  | .layerL => .next (s.setDout (s.layerL.setWidth 64))
  | .layerR => .next (s.setDout (s.layerR.setWidth 64))
  | .maskL => .next (s.setDout (s.maskL.setWidth 64))
  | .maskR => .next (s.setDout (s.maskR.setWidth 64))

end Sys2Proof.Machine
end

