-- ==== Sys2Proof/Machine/WireCodec.lean ====
section
/-! DEFINITION. The wire codec commands (41_wire_codec.md R110 to R115). -/

namespace Sys2Proof.Machine

/-- CD.ENC: DOUT takes the frame of DIN[31:0], byte i at bits [8i+7 : 8i] (R113). -/
def execCdEnc (s : State) : Result :=
  .next (s.setDout ((packFrame (encodeFrame (dinPayload s))).setWidth 64))

/-- CD.DEC: DOUT takes the value of the frame in DIN[39:0]; no marker pattern is an error (R114). -/
def execCdDec (s : State) : Result :=
  .next (s.setDout ((decodeFrame (unpackFrame s.din)).setWidth 64))

end Sys2Proof.Machine
end

