-- ==== Sys2Proof/Machine/Dispatch.lean ====
section
/-! DEFINITION. One arm per command: its meaning. -/

namespace Sys2Proof.Machine
open Sys2Proof

def exec (i : Instr) (s : State) : Host.Outcome State Fault Refusal :=
  match i with
  -- BitWord Set (40_bitword.md)
  | .bwNew => Sys2Proof.Machine.execBwNew s
  | .bwGet idx => Sys2Proof.Machine.execBwGet idx s
  | .bwSet idx val => Sys2Proof.Machine.execBwSet idx val s
  | .bwGetraw => Sys2Proof.Machine.execBwGetraw s
  | .bwSetraw => Sys2Proof.Machine.execBwSetraw s
  | .bwClear => Sys2Proof.Machine.execBwClear s
  | .bwLdrx => Sys2Proof.Machine.execBwLdrx s
  -- wire codec and receive framer (41_wire_codec.md)
  | .cdEnc => Sys2Proof.Machine.execCdEnc s
  | .cdDec => Sys2Proof.Machine.execCdDec s
  | .frRxb byte => Sys2Proof.Machine.execFrRxb byte s
  | .frRdval => Sys2Proof.Machine.execFrRdval s
  | .frStat => Sys2Proof.Machine.execFrStat s
  -- report buffers (42_report_buffer.md)
  | .rbClear sel => Sys2Proof.Machine.execRbClear sel s
  | .rbPush sel code => Sys2Proof.Machine.execRbPush sel code s
  | .rbFill sel ix code => Sys2Proof.Machine.execRbFill sel ix code s
  | .rbLen sel => Sys2Proof.Machine.execRbLen sel s
  | .rbRead sel ix => Sys2Proof.Machine.execRbRead sel ix s
  -- synthesizer (43_synthesizer.md)
  | .synCycle => Sys2Proof.Machine.execSynCycle s
  | .synRead which => Sys2Proof.Machine.execSynRead which s
  -- status (44_status.md)
  | .statRead => Sys2Proof.Machine.execStatRead s

end Sys2Proof.Machine
end

