-- ==== Sys2Proof/Machine/Step.lean ====
section
/-! DEFINITION. One step: the host's next action (20_memory.md R58, R62). There is no fetch and no program counter
(10_state.md R36): a command comes from CMD. -/

namespace Sys2Proof.Machine

/-- The block performs one command word: it decodes first, so an illegal word raises ILL only (R82, R181, R184). -/
def issue (w : CmdWord) (s : State) : Result :=
  match decode w with
  | .ok i => exec i s
  | .error _ => .next (raise .ill s)

/-- One step. A configuration that breaks R10 is refused. With nothing to do for the host the block idles. -/
def step (s : State) : Host.Outcome State Fault Refusal :=
  if configValid s.cfg then
    match takeAction s with
    | none => .next (idle s)
    | some (.writeDin v, t) => .next (hostWriteDin v t)
    | some (.command w, t) => issue w t
  else .refused .invalidConfig

/-- The state in which the very next step performs the word of the instruction whose bits are `w`: the host presents it
on CMD (log entry 3). A number that does not fit CMD presents nothing. -/
def State.withFetchWord (s : State) (nbits w : Nat) : State :=
  match tableWord nbits w with
  | some word => presentCommand word s
  | none => s

end Sys2Proof.Machine
end

