-- ==== Sys2Proof/Machine/HostProtocol.lean ====
section
/-! DEFINITION. The host's duties as the source's loops perform them (70_reset_and_hazards.md R203 to R205). They are
not behaviour of the block: they say which actions drive it the way the source drives its core (00_scope.md R7). -/

namespace Sys2Proof.Machine

/-- The host issues one command. -/
def issues (i : Instr) : HostAction := .command (encode i)

/-- The report handed over once per cycle: every slot of both buffers, read by RB.READ (R203 (5), R204). -/
def reportReads (c : Config) : List HostAction :=
  ((List.range c.capP).map fun i => issues (.rbRead .primary (BitVec.ofNat 7 i))) ++
    ((List.range c.capS).map fun i => issues (.rbRead .secondary (BitVec.ofNat 7 i)))

/-- One iteration of the receiving half's loop: at most one wire byte, then the right matrix rebuilt, the left matrix
written, the cycle run and the report read (R203). -/
def receivingIteration (c : Config) (byte : Option Byte) (left : LeftBits) : List HostAction :=
  (byte.toList.map fun b => issues (.frRxb b)) ++
    [issues .bwLdrx, .writeDin (left.setWidth 64), issues .synCycle] ++ reportReads c

/-- One scan cycle of the sending half: its raw right-half scan is written into DIN[31:0] and encoded (R205). -/
def sendingCycle (scan : Payload) : List HostAction := [.writeDin (scan.setWidth 64), issues .cdEnc]

/-- The bytes the sending half transmits, in order, from the DOUT that CD.ENC left (R205). -/
def sentBytes (dout : Data) : List Byte := (unpackFrame dout).toList

end Sys2Proof.Machine
end

