-- ==== Sys2Proof/Safety.lean ====
section
/-! DEFINITION. The terms in which claims are made: the invariant of the block's state, error-free states, what one
cycle emits in closed form (43_synthesizer.md R153 (g)), which register a command may read and write (10_state.md R41),
and runs of several commands. No meaning uses a definition of this file. -/

namespace Sys2Proof
open Sys2Proof.Machine

/-! ### The invariant -/

/-- What every state of a run satisfies: BW fits W bits (R24), FR_FILL is 0 to 4 between commands (R26), each report
buffer has CAP slots and a length of at most CAP (R28, R29), LAYER_L is 0 or 1 and LAYER_R is below `NL_R` (R32). -/
structure BlockInv (s : State) : Prop where
  bwFits   : lowBits s.cfg.bwW s.bw = s.bw
  fillLow  : s.frFill.toNat ≤ 4
  slotsP   : s.rbP.slot.length = s.cfg.capP
  lenP     : s.rbP.len.toNat ≤ s.cfg.capP
  slotsS   : s.rbS.slot.length = s.cfg.capS
  lenS     : s.rbS.len.toNat ≤ s.cfg.capS
  layerLow : s.layerL = 0 ∨ s.layerL = 1
  layerR   : s.layerR.toNat < s.cfg.nlR

/-- No error has been raised since reset. "A model reads a state with ERR != 0 as a fault state: it is never final and
claims take "ERR = 0" as a premise" (R190). The block itself goes on accepting commands. -/
def ErrFree (s : State) : Prop := s.err = 0

/-- The effect of an error on the state: bit `b` of ERR is set and nothing else changes (R181, R182). -/
def SetsOnlyErrBit (b : Nat) (s t : State) : Prop :=
  (∀ k, k < 2 → t.err.getLsbD k = (decide (k = b) || s.err.getLsbD k)) ∧ t = { s with err := t.err }

/-- The column "IDX when" of R185. -/
def indexOutOfRange (i : Instr) (s : State) : Bool :=
  match i with
  | .bwNew => false
  | .bwGet idx => decide (s.cfg.bwW ≤ idx.toNat)
  | .bwSet idx _ => decide (s.cfg.bwW ≤ idx.toNat)
  | .bwGetraw => false
  | .bwSetraw => false
  | .bwClear => false
  | .bwLdrx => false
  | .cdEnc => false
  | .cdDec => false
  | .frRxb _ => false
  | .frRdval => false
  | .frStat => false
  | .rbClear _ => false
  | .rbPush _ _ => false
  | .rbFill _ _ _ => false
  | .rbLen _ => false
  | .rbRead sel ix => decide (capOf s.cfg sel ≤ ix.toNat)
  | .synCycle => false
  | .synRead _ => false
  | .statRead => false

/-! ### What one cycle emits -/

/-- ll of the cycle that would run now (R143). -/
def cycleLeft (s : State) : Layer := leftLayer s.cfg (leftMatrix s)

/-- rl of the cycle that would run now (R144). -/
def cycleRight (s : State) : Layer := rightLayer s.cfg (cycleLeft s) (rightMatrix s)

/-- A per-position code for left position `p` is pushed in the cycle that would run now: p is pressed, the left layer
does not change (a change blocks every pressed position, R145), and p is not blocked (R148). -/
def emitsLeft (s : State) (p : Nat) : Bool :=
  (leftMatrix s).getLsbD p && cycleLeft s == s.layerL && !s.maskL.getLsbD p

/-- The same for right position `p` (R146, R149). -/
def emitsRight (s : State) (p : Nat) : Bool :=
  (rightMatrix s).getLsbD p && cycleRight s == s.layerR && !s.maskR.getLsbD p

/-- The layout entries of the emitting left positions, in ascending position order (R148). -/
def leftEntries (s : State) : List Entry :=
  ((List.range 30).filter (emitsLeft s)).filterMap (lookupLeft s.cfg (cycleLeft s))

/-- The layout entries of the emitting right positions, in ascending position order (R149). -/
def rightEntries (s : State) : List Entry :=
  ((List.range 29).filter (emitsRight s)).filterMap (lookupRight s.cfg (cycleRight s))

/-- The primary code of an entry, if it is of kind P. -/
def Entry.primary? : Entry → Option PCode
  | .primary c => some c
  | .secondary _ => none

/-- The secondary code of an entry, if it is of kind S. -/
def Entry.secondary? : Entry → Option SCode
  | .primary _ => none
  | .secondary c => some c

/-- MASK_L after the cycle: the pressed positions that a layer change blocks now or that were blocked before. -/
def maskLeftAfter (s : State) : LeftBits :=
  if cycleLeft s = s.layerL then leftMatrix s &&& s.maskL else leftMatrix s

/-- MASK_R after the cycle. -/
def maskRightAfter (s : State) : RightBits :=
  if cycleRight s = s.layerR then rightMatrix s &&& s.maskR else rightMatrix s

/-- The combination codes of the cycle, in list order, each guard read with the masks as steps 6 and 7 leave them
(R150). -/
def comboCodes (s : State) : List PCode :=
  s.cfg.combos.flatMap fun k =>
    if guardHolds k.guard
        ⟨cycleLeft s, cycleRight s, leftMatrix s, rightMatrix s, maskLeftAfter s, maskRightAfter s⟩
    then k.codes else []

/-- Every primary code the cycle pushes, in order, before any is dropped (R153 (g)). -/
def cyclePrimary (s : State) : List PCode :=
  (leftEntries s ++ rightEntries s).filterMap Entry.primary? ++ comboCodes s

/-- Every secondary code the cycle pushes, in order, before any is dropped (R153 (g)). -/
def cycleSecondary (s : State) : List SCode := (leftEntries s ++ rightEntries s).filterMap Entry.secondary?

/-- "every slot of a buffer at index >= len holds its kind's sentinel", for both buffers (R153 (f)). -/
def SentinelTail (s : State) : Prop :=
  (∀ i, s.rbP.len.toNat ≤ i → i < s.cfg.capP → s.rbP.slot[i]? = some s.cfg.sentP) ∧
    ∀ i, s.rbS.len.toNat ≤ i → i < s.cfg.capS → s.rbS.slot[i]? = some s.cfg.sentS

/-- While the stored left layer is not 0, the left function key is blocked (R153 (d)). -/
def FunctionKeyBlocked (s : State) : Prop := s.layerL ≠ 0 → s.maskL.getLsbD s.cfg.lfk = true

/-- The host's next action is to issue SYN.CYCLE. -/
def CycleNext (s : State) : Prop := ∃ w rest, s.host = .command w :: rest ∧ decode w = .ok .synCycle

/-! ### Which command reads and writes which register (R41) -/

/-- A register of R41's columns, a report buffer split into its length and its slots as the table's notes do. -/
inductive Reg where
  | din | dout | bw | frBuf | frFill | rxValue
  | len (sel : Sel) | slots (sel : Sel)
  | layerL | layerR | maskL | maskR | err
  deriving DecidableEq, Repr

/-- Two states hold the same value in a register. -/
def SameReg (r : Reg) (s t : State) : Prop :=
  match r with
  | .din => s.din = t.din
  | .dout => s.dout = t.dout
  | .bw => s.bw = t.bw
  | .frBuf => s.frBuf = t.frBuf
  | .frFill => s.frFill = t.frFill
  | .rxValue => s.rxValue = t.rxValue
  | .len .primary => s.rbP.len = t.rbP.len
  | .len .secondary => s.rbS.len = t.rbS.len
  | .slots .primary => s.rbP.slot = t.rbP.slot
  | .slots .secondary => s.rbS.slot = t.rbS.slot
  | .layerL => s.layerL = t.layerL
  | .layerR => s.layerR = t.layerR
  | .maskL => s.maskL = t.maskL
  | .maskR => s.maskR = t.maskR
  | .err => s.err = t.err

/-- The entries r of R41's table. -/
def regsRead : Instr → List Reg
  | .bwNew => [.din]
  | .bwGet _ => [.bw]
  | .bwSet _ _ => [.bw]
  | .bwGetraw => [.bw]
  | .bwSetraw => [.din]
  | .bwClear => []
  | .bwLdrx => [.rxValue]
  | .cdEnc => [.din]
  | .cdDec => [.din]
  | .frRxb _ => [.frBuf, .frFill]
  | .frRdval => [.rxValue]
  | .frStat => [.frBuf, .frFill]
  | .rbClear _ => []
  | .rbPush sel _ => [.len sel, .slots sel]
  | .rbFill sel _ _ => [.slots sel]
  | .rbLen sel => [.len sel]
  | .rbRead sel _ => [.slots sel]
  | .synCycle =>
    [.din, .bw, .len .primary, .slots .primary, .len .secondary, .slots .secondary, .layerL, .layerR, .maskL, .maskR]
  | .synRead _ => [.layerL, .layerR, .maskL, .maskR]
  | .statRead => [.err]

/-- The entries w of R41's table. -/
def regsWritten : Instr → List Reg
  | .bwNew => [.bw]
  | .bwGet _ => [.dout]
  | .bwSet _ _ => [.bw]
  | .bwGetraw => [.dout]
  | .bwSetraw => [.bw]
  | .bwClear => [.bw]
  | .bwLdrx => [.bw]
  | .cdEnc => [.dout]
  | .cdDec => [.dout]
  | .frRxb _ => [.dout, .frBuf, .frFill, .rxValue]
  | .frRdval => [.dout]
  | .frStat => [.dout]
  | .rbClear sel => [.len sel]
  | .rbPush sel _ => [.len sel, .slots sel]
  | .rbFill sel _ _ => [.slots sel]
  | .rbLen _ => [.dout]
  | .rbRead _ _ => [.dout]
  | .synCycle =>
    [.len .primary, .slots .primary, .len .secondary, .slots .secondary, .layerL, .layerR, .maskL, .maskR]
  | .synRead _ => [.dout]
  | .statRead => [.dout]

/-! ### Several commands -/

/-- Commands performed one after the other, stopping at the first that does not answer a next state (R62). -/
def runCommands : List Instr → State → Result
  | [], s => .next s
  | i :: rest, s =>
    match exec i s with
    | .next t => runCommands rest t
    | .fault r => .fault r
    | .refused r => .refused r

end Sys2Proof
end

