-- ==== Sys2Proof/Certificates/Slice0/Obligations.lean ====
section
/-! DEFINITION. The statements for the provers, file by file of the spec. A statement says an instruction's whole effect
and its frame: `t = { s with r := t.r }` says that every field but `r` is as before. -/

open Sys2Proof Sys2Proof.Machine

/-! ### Encoding (30_encoding.md) -/

/-- Words written out from the encodings of R72 to R79 and R84 decode to the commands they stand for. -/
def Obligations.SpecWordsDecode : Prop :=
  decode 0b00000001000000000000000000011111#32 = .ok (.bwGet 31) ∧
  decode 0b00000010000000000000000001000100#32 = .ok (.bwSet 4 true) ∧
  decode 0b00010000000000000000000000000000#32 = .ok .cdEnc ∧
  decode 0b00100000000000000000000011111000#32 = .ok (.frRxb 0xF8) ∧
  decode 0b00110001100000000001001000110100#32 = .ok (.rbPush .secondary 0x1234) ∧
  decode 0b00110010000000010000000000000000#32 = .ok (.rbFill .primary 1 0) ∧
  decode 0b00110100100000110000000000000000#32 = .ok (.rbRead .secondary 3) ∧
  decode 0b01000001000000000000000000000010#32 = .ok (.synRead .maskL) ∧
  decode 0b11110000000000000000000000000000#32 = .ok .statRead

/-- Decoding the word of a well-formed command gives the command back, with every operand at every value. -/
def Obligations.DecodeOfEncode : Prop :=
  ∀ i : Instr, i.wellFormed = true → decode (encode i) = .ok i

/-- Each legal word has one meaning: the command it decodes to is well formed and encodes to that word again. -/
def Obligations.EncodeOfDecode : Prop :=
  ∀ (w : CmdWord) (i : Instr), decode w = .ok i → i.wellFormed = true ∧ encode i = w

/-- The decoding procedure of R82: at most one row matches a word; a word that a row matches decodes to that row's
command with its fields; a word that no row matches is illegal. Range checks are not decoding: every index decodes. -/
def Obligations.DecodeFollowsOpcodeTable : Prop :=
  (∀ w : CmdWord, ∀ r ∈ opcodeTable, ∀ q ∈ opcodeTable,
    r.hits w = true → q.hits w = true → r.mnemonic = q.mnemonic) ∧
  (∀ w : CmdWord, ∀ r ∈ opcodeTable, w &&& r.mask = r.pattern → r.extra w = true → decode w = .ok (r.read w)) ∧
  (∀ w : CmdWord, (∀ r ∈ opcodeTable, ¬(w &&& r.mask = r.pattern ∧ r.extra w = true)) → ∃ e, decode w = .error e) ∧
  (∀ idx : BitVec 6, decode (0x01000000#32 ||| idx.setWidth 32) = .ok (.bwGet idx) ∧
    decode (0x02000000#32 ||| idx.setWidth 32) = .ok (.bwSet idx false) ∧
    decode (0x02000040#32 ||| idx.setWidth 32) = .ok (.bwSet idx true)) ∧
  (∀ ix : BitVec 7, decode (0x34000000#32 ||| ix.setWidth 32 <<< 16) = .ok (.rbRead .primary ix) ∧
    decode (0x34800000#32 ||| ix.setWidth 32 <<< 16) = .ok (.rbRead .secondary ix)) ∧
  (∀ (w : CmdWord) (s : State), (∃ e, decode w = .error e) → issue w s = .next (raise .ill s))

/-- The illegal words are exactly those of R80's list: a reserved UNIT, an unassigned OP, a 1 in a reserved bit of the
command's format, or a primary CODE wider than 8 bits. -/
def Obligations.IllegalWordsAreListed : Prop :=
  ∀ w : CmdWord, (∃ e, decode w = .error e) ↔
    ((0x5 ≤ unitField w ∧ unitField w ≤ 0xE) ∨
     (unitField w = 0x0 ∧ 0x7 ≤ opField w) ∨ (unitField w = 0x1 ∧ 0x2 ≤ opField w) ∨
     (unitField w = 0x2 ∧ 0x3 ≤ opField w) ∨ (unitField w = 0x3 ∧ 0x5 ≤ opField w) ∨
     (unitField w = 0x4 ∧ 0x2 ≤ opField w) ∨ (unitField w = 0xF ∧ 0x1 ≤ opField w) ∨
     -- format N: ARG[23:0] must be 0
     ((unitField w, opField w) ∈ [(0x0, 0x0), (0x0, 0x3), (0x0, 0x4), (0x0, 0x5), (0x0, 0x6), (0x1, 0x0), (0x1, 0x1),
        (0x2, 0x1), (0x2, 0x2), (0x4, 0x0), (0xF, 0x0)] ∧ w.extractLsb' 0 24 ≠ 0) ∨
     -- formats BI, BS, X and Q
     ((unitField w, opField w) = (0x0, 0x1) ∧ w.extractLsb' 6 18 ≠ 0) ∨
     ((unitField w, opField w) = (0x0, 0x2) ∧ w.extractLsb' 7 17 ≠ 0) ∨
     ((unitField w, opField w) = (0x2, 0x0) ∧ w.extractLsb' 8 16 ≠ 0) ∨
     ((unitField w, opField w) = (0x4, 0x1) ∧ w.extractLsb' 2 22 ≠ 0) ∨
     -- format R: IX and CODE where the command does not use them
     ((unitField w, opField w) ∈ [(0x3, 0x0), (0x3, 0x3)] ∧ w.extractLsb' 0 23 ≠ 0) ∨
     ((unitField w, opField w) = (0x3, 0x1) ∧ w.extractLsb' 16 7 ≠ 0) ∨
     ((unitField w, opField w) = (0x3, 0x4) ∧ w.extractLsb' 0 16 ≠ 0) ∨
     -- a primary code wider than 8 bits
     ((unitField w, opField w) ∈ [(0x3, 0x1), (0x3, 0x2)] ∧ w.getLsbD 23 = false ∧ w.extractLsb' 8 8 ≠ 0))

/-! ### The step (10_state.md, 20_memory.md, 00_scope.md) -/

/-- A step performs the decoded command: when the host's next action is a legal word, the step is `exec` of the command,
the action being used up; when it is an illegal word, the step is what `issue` does with it. The host's list of actions
is the model's own (log entry 3). -/
def Obligations.StepRunsDecodedCommand : Prop :=
  (∀ (s : State) (w : CmdWord) (rest : List HostAction) (i : Instr),
    configValid s.cfg = true → s.host = .command w :: rest → decode w = .ok i →
    step s = exec i { s with host := rest }) ∧
  ∀ (s : State) (w : CmdWord) (rest : List HostAction) (e : Illegal),
    configValid s.cfg = true → s.host = .command w :: rest → decode w = .error e →
    step s = issue w { s with host := rest }

/-- R181: an illegal word sets ERR.ILL and changes nothing else; the command completes, with a next state. -/
def Obligations.IllegalWordRaisesIll : Prop :=
  ∀ (s : State) (w : CmdWord) (e : Illegal), decode w = .error e →
    ∃ t, issue w s = .next t ∧ SetsOnlyErrBit 0 s t

/-- DIN is the host's: a host write puts the value into DIN and changes nothing else, and no command writes DIN. -/
def Obligations.OnlyTheHostWritesDin : Prop :=
  (∀ (s : State) (v : Data) (rest : List HostAction), configValid s.cfg = true → s.host = .writeDin v :: rest →
    step s = .next { s with host := rest, din := v }) ∧
  ∀ (i : Instr) (s t : State), exec i s = .next t → t.din = s.din

/-- A configuration is valid exactly when R10's clauses hold (the width clauses on codes and sentinels hold by the types
of the fields); an invalid one is refused, and SYN.CYCLE runs only with `BW_W >= N_R`. -/
def Obligations.InvalidConfigurationRefused : Prop :=
  (∀ c : Config, configValid c = true ↔
    ((c.bwW = 8 ∨ c.bwW = 16 ∨ c.bwW = 32 ∨ c.bwW = 64) ∧
     (1 ≤ c.capP ∧ c.capP ≤ 127) ∧ (1 ≤ c.capS ∧ c.capS ≤ 127) ∧
     c.lfk < 30 ∧ (2 ≤ c.nlR ∧ c.nlR ≤ 4) ∧
     c.rfk.length ≤ 3 ∧ (∀ k ∈ c.rfk, k.pos < 29 ∧ k.layer.toNat < c.nlR) ∧
     c.layoutL.length = 2 ∧ (∀ row ∈ c.layoutL, row.length = 30) ∧
     c.layoutR.length = c.nlR ∧ (∀ row ∈ c.layoutR, row.length = 29))) ∧
  (∀ s : State, configValid s.cfg = false → step s = .refused .invalidConfig) ∧
  (∀ s : State, configValid s.cfg = true →
    ((∃ t, exec .synCycle s = .next t) ↔ 29 ≤ s.cfg.bwW) ∧
    (s.cfg.bwW < 29 → exec .synCycle s = .refused .cycleConfig))

/-- The configuration is fixed at build time: no step changes it. That it stands in State is the model's form (log
entry 1). -/
def Obligations.ConfigurationNeverChanges : Prop :=
  ∀ s t : State, step s = .next t → t.cfg = s.cfg

/-! ### BitWord Set (40_bitword.md) -/

/-- BW.NEW: `BW <- DIN[W-1:0]`. -/
def Obligations.BwNewLoadsDin : Prop :=
  encode .bwNew = 0x00000000#32 ∧
  ∀ s : State, ∃ t, exec .bwNew s = .next t ∧
    (∀ j, j < 64 → t.bw.getLsbD j = (decide (j < s.cfg.bwW) && s.din.getLsbD j)) ∧ t = { s with bw := t.bw }

/-- BW.GET: bit IDX of BW in DOUT, or IDX raised with DOUT and BW unchanged. -/
def Obligations.BwGetReadsBit : Prop :=
  ∀ (idx : BitVec 6) (s : State), encode (.bwGet idx) = 0x01000000#32 ||| idx.setWidth 32 ∧
    (idx.toNat < s.cfg.bwW → ∃ t, exec (.bwGet idx) s = .next t ∧
      t.dout = (if s.bw.getLsbD idx.toNat then 1 else 0) ∧ t = { s with dout := t.dout }) ∧
    (s.cfg.bwW ≤ idx.toNat → ∃ t, exec (.bwGet idx) s = .next t ∧ SetsOnlyErrBit 1 s t)

/-- BW.SET: bit IDX of BW takes VAL and the others stay, or IDX raised with BW unchanged. -/
def Obligations.BwSetWritesBit : Prop :=
  ∀ (idx : BitVec 6) (val : Bool) (s : State),
    encode (.bwSet idx val) = 0x02000000#32 ||| (if val then 0x40#32 else 0x00#32) ||| idx.setWidth 32 ∧
    (idx.toNat < s.cfg.bwW → ∃ t, exec (.bwSet idx val) s = .next t ∧
      (∀ j, j < 64 → t.bw.getLsbD j =
        if j = idx.toNat then val else (decide (j < s.cfg.bwW) && s.bw.getLsbD j)) ∧ t = { s with bw := t.bw }) ∧
    (s.cfg.bwW ≤ idx.toNat → ∃ t, exec (.bwSet idx val) s = .next t ∧ SetsOnlyErrBit 1 s t)

/-- BW.GETRAW: `DOUT <- zext_64(BW)`. -/
def Obligations.BwGetrawReadsBw : Prop :=
  encode .bwGetraw = 0x03000000#32 ∧
  ∀ s : State, ∃ t, exec .bwGetraw s = .next t ∧
    (∀ j, j < 64 → t.dout.getLsbD j = (decide (j < s.cfg.bwW) && s.bw.getLsbD j)) ∧ t = { s with dout := t.dout }

/-- BW.SETRAW: `BW <- DIN[W-1:0]`, identical in effect to BW.NEW. -/
def Obligations.BwSetrawLoadsDin : Prop :=
  encode .bwSetraw = 0x04000000#32 ∧
  ∀ s : State, exec .bwSetraw s = exec .bwNew s ∧ ∃ t, exec .bwSetraw s = .next t ∧
    (∀ j, j < 64 → t.bw.getLsbD j = (decide (j < s.cfg.bwW) && s.din.getLsbD j)) ∧ t = { s with bw := t.bw }

/-- BW.CLEAR: `BW <- 0`. -/
def Obligations.BwClearZeroes : Prop :=
  encode .bwClear = 0x05000000#32 ∧ ∀ s : State, exec .bwClear s = .next { s with bw := 0 }

/-- BW.LDRX: BW takes RX_VALUE, truncated to W bits or zero-extended. -/
def Obligations.BwLdrxLoadsRxValue : Prop :=
  encode .bwLdrx = 0x06000000#32 ∧
  ∀ s : State, ∃ t, exec .bwLdrx s = .next t ∧
    (s.cfg.bwW ≤ 32 → ∀ j, j < 64 → t.bw.getLsbD j = (decide (j < s.cfg.bwW) && s.rxValue.getLsbD j)) ∧
    (32 < s.cfg.bwW → t.bw = s.rxValue.setWidth 64) ∧ t = { s with bw := t.bw }

/-- The commands of the BW unit. -/
def Obligations.BwLaws : Prop :=
  (∀ (s : State) (i : BitVec 6) (v : Bool), i.toNat < s.cfg.bwW →
    ∃ t, runCommands [.bwSet i v, .bwGet i] s = .next t ∧ t.dout = if v then 1 else 0) ∧
  (∀ (s : State) (i j : BitVec 6) (v : Bool), i.toNat < s.cfg.bwW → j.toNat < s.cfg.bwW → j ≠ i →
    ∃ t u, runCommands [.bwSet i v, .bwGet j] s = .next t ∧ exec (.bwGet j) s = .next u ∧ t.dout = u.dout) ∧
  (∀ (s : State) (i : BitVec 6), i.toNat < s.cfg.bwW →
    ∃ t u, runCommands [.bwClear, .bwGet i] s = .next t ∧ t.dout = 0 ∧
      runCommands [.bwClear, .bwGetraw] s = .next u ∧ u.dout = 0) ∧
  (∀ (s : State) (i : BitVec 6), i.toNat < s.cfg.bwW → ∀ load ∈ [Instr.bwNew, Instr.bwSetraw],
    ∃ t u, runCommands [load, .bwGetraw] s = .next t ∧ t.dout = lowBits s.cfg.bwW s.din ∧
      runCommands [load, .bwGet i] s = .next u ∧ u.dout = if s.din.getLsbD i.toNat then 1 else 0) ∧
  (∀ (s s' : State) (idx : BitVec 6) (v : Bool),
    ∀ i ∈ [.bwNew, .bwGet idx, .bwSet idx v, .bwGetraw, .bwSetraw, .bwClear, .bwLdrx],
    s.cfg = s'.cfg → s.bw = s'.bw → s.din = s'.din → s.dout = s'.dout → s.rxValue = s'.rxValue → s.err = s'.err →
    ∃ t t', exec i s = .next t ∧ exec i s' = .next t' ∧ t.bw = t'.bw ∧ t.dout = t'.dout ∧ t.err = t'.err ∧
      t = { s with bw := t.bw, dout := t.dout, err := t.err })

/-! ### Wire codec (41_wire_codec.md) -/

/-- The frame format: byte 0 has bit 7 set, the others have it clear, and bits 6:0 of byte i are payload bits
[7i, 7i+7), those above bit 31 zero. -/
def Obligations.EncodeFrameLayout : Prop :=
  ∀ (v : Payload) (i : Nat) (h : i < 5) (k : Nat), k < 8 →
    (encodeFrame v)[i].getLsbD k = if k = 7 then decide (i = 0) else v.getLsbD (7 * i + k)

/-- `decode`: payload bit j is bit j mod 7 of byte j div 7; no marker and none of byte 4 bits 6:4 takes part. -/
def Obligations.DecodeFrameLayout : Prop :=
  ∀ (f : Frame) (j : Nat) (h : j < 32), (decodeFrame f).getLsbD j = (f[j / 7]'(by omega)).getLsbD (j % 7)

/-- CD.ENC: DOUT holds the frame of DIN[31:0], byte i at bits [8i+7:8i], and 0 above. -/
def Obligations.CdEncPacksFrame : Prop :=
  encode .cdEnc = 0x10000000#32 ∧
  ∀ s : State, ∃ t, exec .cdEnc s = .next t ∧
    (∀ (i : Nat) (h : i < 5), t.dout.extractLsb' (8 * i) 8 = (encodeFrame (s.din.setWidth 32))[i]) ∧
    t.dout.extractLsb' 40 24 = 0 ∧ t.dout.getLsbD 7 = true ∧
    (∀ k ∈ [15, 23, 31, 36, 37, 38, 39], t.dout.getLsbD k = false) ∧ t = { s with dout := t.dout }

/-- CD.DEC: DOUT holds the value of the frame in DIN[39:0]; DIN[63:40], every marker bit and byte 4 bits 6:4 are
ignored. -/
def Obligations.CdDecUnpacksFrame : Prop :=
  encode .cdDec = 0x11000000#32 ∧
  ∀ s : State, ∃ t, exec .cdDec s = .next t ∧
    (∀ j, j < 64 → t.dout.getLsbD j = (decide (j < 32) && s.din.getLsbD (8 * (j / 7) + j % 7))) ∧
    t = { s with dout := t.dout }

/-- Round trip: decode after encode is the identity, also through the two commands and the host's DIN write. -/
def Obligations.CodecRoundTrip : Prop :=
  (∀ v : Payload, decodeFrame (encodeFrame v) = v) ∧
  ∀ s : State, ∃ t u, exec .cdEnc s = .next t ∧ exec .cdDec (hostWriteDin t.dout t) = .next u ∧
    u.dout = (s.din.setWidth 32).setWidth 64

/-! ### Receive framer (41_wire_codec.md) -/

/-- FR.RXB in its four cases, FR_FILL being 0 to 4 (R26). What it does with a larger fill count, which no run reaches, is
said by AbsentElementsStop. -/
def Obligations.RxbReceivesByte : Prop :=
  ∀ (b : Byte) (s : State), encode (.frRxb b) = 0x20000000#32 ||| b.setWidth 32 ∧
    -- a start byte
    (b.getLsbD 7 = true → ∃ t, exec (.frRxb b) s = .next t ∧
      (∀ (i : Nat) (h : i < 5), t.frBuf[i] = if i = 0 then b else s.frBuf[i]) ∧ t.frFill = 1 ∧ t.dout = 0 ∧
      t = { s with frBuf := t.frBuf, frFill := t.frFill, dout := t.dout }) ∧
    -- a continuation byte with no frame in progress
    (b.getLsbD 7 = false → s.frFill = 0 → exec (.frRxb b) s = .next { s with dout := 0 }) ∧
    -- a continuation byte that does not complete the frame
    (b.getLsbD 7 = false → 1 ≤ s.frFill.toNat → s.frFill.toNat ≤ 3 → ∃ t, exec (.frRxb b) s = .next t ∧
      (∀ (i : Nat) (h : i < 5), t.frBuf[i] = if i = s.frFill.toNat then b else s.frBuf[i]) ∧
      t.frFill.toNat = s.frFill.toNat + 1 ∧ t.dout = 0 ∧
      t = { s with frBuf := t.frBuf, frFill := t.frFill, dout := t.dout }) ∧
    -- the fifth byte
    (b.getLsbD 7 = false → s.frFill.toNat = 4 → ∃ t, exec (.frRxb b) s = .next t ∧
      (∀ (i : Nat) (h : i < 5), t.frBuf[i] = if i = 4 then b else s.frBuf[i]) ∧ t.frFill = 0 ∧
      t.rxValue = decodeFrame t.frBuf ∧
      t.dout.setWidth 32 = t.rxValue ∧ t.dout.getLsbD 32 = true ∧ t.dout.extractLsb' 33 31 = 0 ∧
      t = { s with frBuf := t.frBuf, frFill := t.frFill, rxValue := t.rxValue, dout := t.dout })

/-- FR.RDVAL: `DOUT <- zext_64(RX_VALUE)`. -/
def Obligations.RdvalReadsRxValue : Prop :=
  encode .frRdval = 0x21000000#32 ∧
  ∀ s : State, ∃ t, exec .frRdval s = .next t ∧ t.dout.toNat = s.rxValue.toNat ∧ t = { s with dout := t.dout }

/-- FR.STAT: FR_FILL at DOUT[2:0], 0 at DOUT[7:3], FR_BUF[i] at DOUT[8i+15:8i+8], 0 above. -/
def Obligations.FrStatReadsFramer : Prop :=
  encode .frStat = 0x22000000#32 ∧
  ∀ s : State, ∃ t, exec .frStat s = .next t ∧
    t.dout.extractLsb' 0 3 = s.frFill ∧ t.dout.extractLsb' 3 5 = 0 ∧
    (∀ (i : Nat) (h : i < 5), t.dout.extractLsb' (8 * i + 8) 8 = s.frBuf[i]) ∧
    t.dout.extractLsb' 48 16 = 0 ∧ t = { s with dout := t.dout }

/-- Resynchronisation: whatever the framer holds, the five bytes of a valid frame give exactly its value; none of the
first four emits, and the fifth does. -/
def Obligations.FramerResynchronises : Prop :=
  ∀ (s : State) (v : Payload), ∃ t₁ t₂ t₃ t₄ t₅,
    exec (.frRxb (encodeFrame v)[0]) s = .next t₁ ∧ exec (.frRxb (encodeFrame v)[1]) t₁ = .next t₂ ∧
    exec (.frRxb (encodeFrame v)[2]) t₂ = .next t₃ ∧ exec (.frRxb (encodeFrame v)[3]) t₃ = .next t₄ ∧
    exec (.frRxb (encodeFrame v)[4]) t₄ = .next t₅ ∧
    (∀ t ∈ [t₁, t₂, t₃, t₄], t.dout = 0 ∧ t.rxValue = s.rxValue) ∧
    t₅.rxValue = v ∧ t₅.frFill = 0 ∧ t₅.dout.toNat = 2 ^ 32 + v.toNat

/-- The limit of resynchronisation: with k bytes of an earlier frame in the framer, five continuation bytes complete a
frame out of those k and the first 5 - k of them; the remaining k are discarded. -/
def Obligations.FramerMisframesOnLostStart : Prop :=
  ∀ (s : State) (bytes : List Byte), bytes.length = 5 → (∀ b ∈ bytes, b.getLsbD 7 = false) →
    1 ≤ s.frFill.toNat → s.frFill.toNat ≤ 4 →
    ∃ t u, runCommands ((bytes.take (5 - s.frFill.toNat)).map .frRxb) s = .next t ∧
      t.frBuf.toList = s.frBuf.toList.take s.frFill.toNat ++ bytes.take (5 - s.frFill.toNat) ∧
      t.rxValue = decodeFrame t.frBuf ∧ t.frFill = 0 ∧ t.dout.toNat = 2 ^ 32 + t.rxValue.toNat ∧
      runCommands ((bytes.drop (5 - s.frFill.toNat)).map .frRxb) t = .next u ∧ u = { t with dout := 0 }

/-- RX_VALUE changes only by FR.RXB, only when the byte completes a frame, and then it is the decoded value, emitted in
DOUT. -/
def Obligations.RxValueOnlyOnCompletion : Prop :=
  ∀ (i : Instr) (s t : State), exec i s = .next t → t.rxValue ≠ s.rxValue →
    ∃ b, i = .frRxb b ∧ b.getLsbD 7 = false ∧ s.frFill = 4 ∧ t.rxValue = decodeFrame t.frBuf ∧
      t.dout.getLsbD 32 = true

/-! ### Report buffers (42_report_buffer.md) -/

/-- RB.CLEAR: the length of the named buffer is 0, its slots stay, the other buffer is untouched. -/
def Obligations.RbClearKeepsSlots : Prop :=
  (∀ sel, encode (.rbClear sel) = 0x30000000#32 ||| (if sel = .secondary then 0x00800000#32 else 0)) ∧
  ∀ s : State,
    (∃ t, exec (.rbClear .primary) s = .next t ∧ t.rbP.len = 0 ∧ t.rbP.slot = s.rbP.slot ∧
      t = { s with rbP := t.rbP }) ∧
    (∃ t, exec (.rbClear .secondary) s = .next t ∧ t.rbS.len = 0 ∧ t.rbS.slot = s.rbS.slot ∧
      t = { s with rbS := t.rbS })

/-- RB.PUSH: the code is appended if capacity remains, else nothing changes. -/
def Obligations.RbPushAppendsOrDrops : Prop :=
  (∀ sel (code : BitVec 16), encode (.rbPush sel code) =
    0x31000000#32 ||| (if sel = .secondary then 0x00800000#32 else 0) ||| code.setWidth 32) ∧
  ∀ (s : State) (code : BitVec 16), configValid s.cfg = true → BlockInv s →
    (s.rbP.len.toNat < s.cfg.capP → ∃ t, exec (.rbPush .primary code) s = .next t ∧
      t.rbP.len.toNat = s.rbP.len.toNat + 1 ∧
      (∀ i, t.rbP.slot[i]? = if i = s.rbP.len.toNat then some (code.extractLsb' 0 8) else s.rbP.slot[i]?) ∧
      t = { s with rbP := t.rbP }) ∧
    (s.rbP.len.toNat = s.cfg.capP → exec (.rbPush .primary code) s = .next s) ∧
    (s.rbS.len.toNat < s.cfg.capS → ∃ t, exec (.rbPush .secondary code) s = .next t ∧
      t.rbS.len.toNat = s.rbS.len.toNat + 1 ∧
      (∀ i, t.rbS.slot[i]? = if i = s.rbS.len.toNat then some code else s.rbS.slot[i]?) ∧
      t = { s with rbS := t.rbS }) ∧
    (s.rbS.len.toNat = s.cfg.capS → exec (.rbPush .secondary code) s = .next s)

/-- RB.FILL: every slot from IX to the capacity takes the code, the length stays; IX >= CAP writes nothing. -/
def Obligations.RbFillOverwritesTail : Prop :=
  (∀ sel (ix : BitVec 7) (code : BitVec 16), encode (.rbFill sel ix code) =
    0x32000000#32 ||| (if sel = .secondary then 0x00800000#32 else 0) ||| ix.setWidth 32 <<< 16 |||
      code.setWidth 32) ∧
  ∀ (s : State) (ix : BitVec 7) (code : BitVec 16), BlockInv s →
    (∃ t, exec (.rbFill .primary ix code) s = .next t ∧ t.rbP.len = s.rbP.len ∧
      (∀ i, t.rbP.slot[i]? =
        if ix.toNat ≤ i ∧ i < s.cfg.capP then some (code.extractLsb' 0 8) else s.rbP.slot[i]?) ∧
      t = { s with rbP := t.rbP }) ∧
    (∃ t, exec (.rbFill .secondary ix code) s = .next t ∧ t.rbS.len = s.rbS.len ∧
      (∀ i, t.rbS.slot[i]? = if ix.toNat ≤ i ∧ i < s.cfg.capS then some code else s.rbS.slot[i]?) ∧
      t = { s with rbS := t.rbS })

/-- RB.LEN: `DOUT <- zext_64(RB[SEL].len)`, a value in 0..CAP. -/
def Obligations.RbLenReadsLength : Prop :=
  (∀ sel, encode (.rbLen sel) = 0x33000000#32 ||| (if sel = .secondary then 0x00800000#32 else 0)) ∧
  ∀ s : State,
    (∃ t, exec (.rbLen .primary) s = .next t ∧ t.dout.toNat = s.rbP.len.toNat ∧ t = { s with dout := t.dout }) ∧
    (∃ t, exec (.rbLen .secondary) s = .next t ∧ t.dout.toNat = s.rbS.len.toNat ∧ t = { s with dout := t.dout }) ∧
    (BlockInv s → ∀ t, exec (.rbLen .primary) s = .next t → t.dout.toNat ≤ s.cfg.capP) ∧
    (BlockInv s → ∀ t, exec (.rbLen .secondary) s = .next t → t.dout.toNat ≤ s.cfg.capS)

/-- RB.READ: the slot as it stands in DOUT, also at or above the length; IX >= CAP raises IDX. -/
def Obligations.RbReadReadsSlot : Prop :=
  (∀ sel (ix : BitVec 7), encode (.rbRead sel ix) =
    0x34000000#32 ||| (if sel = .secondary then 0x00800000#32 else 0) ||| ix.setWidth 32 <<< 16) ∧
  ∀ (s : State) (ix : BitVec 7),
    (∀ c, ix.toNat < s.cfg.capP → s.rbP.slot[ix.toNat]? = some c → ∃ t, exec (.rbRead .primary ix) s = .next t ∧
      t.dout.toNat = c.toNat ∧ t = { s with dout := t.dout }) ∧
    (s.cfg.capP ≤ ix.toNat → ∃ t, exec (.rbRead .primary ix) s = .next t ∧ SetsOnlyErrBit 1 s t) ∧
    (∀ c, ix.toNat < s.cfg.capS → s.rbS.slot[ix.toNat]? = some c → ∃ t, exec (.rbRead .secondary ix) s = .next t ∧
      t.dout.toNat = c.toNat ∧ t = { s with dout := t.dout }) ∧
    (s.cfg.capS ≤ ix.toNat → ∃ t, exec (.rbRead .secondary ix) s = .next t ∧ SetsOnlyErrBit 1 s t)

/-- The model's own stops, in states that no run reaches (log entry 7): FR.RXB with a fill count above 4, RB.READ of a
slot below CAP that the slot list lacks. In a state that meets the invariant neither happens. -/
def Obligations.AbsentElementsStop : Prop :=
  (∀ (b : Byte) (s : State), b.getLsbD 7 = false → 4 < s.frFill.toNat →
    exec (.frRxb b) s = .fault .absentElement) ∧
  (∀ (s : State) (ix : BitVec 7), ix.toNat < s.cfg.capP → s.rbP.slot[ix.toNat]? = none →
    exec (.rbRead .primary ix) s = .fault .absentElement) ∧
  (∀ (s : State) (ix : BitVec 7), ix.toNat < s.cfg.capS → s.rbS.slot[ix.toNat]? = none →
    exec (.rbRead .secondary ix) s = .fault .absentElement) ∧
  ∀ (i : Instr) (s : State) (r : Fault), BlockInv s → exec i s ≠ .fault r

/-- Overflow: n pushes after a clear leave length min(n, CAP), the first min(n, CAP) codes in push order, and the slots
above as they were. -/
def Obligations.PushesAfterClear : Prop :=
  (∀ (s : State) (codes : List (BitVec 16)), configValid s.cfg = true → BlockInv s →
    ∃ t, runCommands (.rbClear .primary :: codes.map (.rbPush .primary)) s = .next t ∧
      t.rbP.len.toNat = min codes.length s.cfg.capP ∧
      (∀ i, t.rbP.slot[i]? =
        if i < min codes.length s.cfg.capP then (codes[i]?).map (·.extractLsb' 0 8) else s.rbP.slot[i]?) ∧
      t = { s with rbP := t.rbP }) ∧
  (∀ (s : State) (codes : List (BitVec 16)), configValid s.cfg = true → BlockInv s →
    ∃ t, runCommands (.rbClear .secondary :: codes.map (.rbPush .secondary)) s = .next t ∧
      t.rbS.len.toNat = min codes.length s.cfg.capS ∧
      (∀ i, t.rbS.slot[i]? = if i < min codes.length s.cfg.capS then codes[i]? else s.rbS.slot[i]?) ∧
      t = { s with rbS := t.rbS })

/-- The buffer is append-only: nothing but a clear, a push, a fill or a cycle changes a buffer, and reading never
does. -/
def Obligations.BuffersChangeOnlyByNamedCommands : Prop :=
  ∀ (i : Instr) (s t : State), exec i s = .next t →
    (t.rbP = s.rbP ∨ i = .rbClear .primary ∨ (∃ c, i = .rbPush .primary c) ∨ (∃ f c, i = .rbFill .primary f c) ∨
      i = .synCycle) ∧
    (t.rbS = s.rbS ∨ i = .rbClear .secondary ∨ (∃ c, i = .rbPush .secondary c) ∨
      (∃ f c, i = .rbFill .secondary f c) ∨ i = .synCycle)

/-! ### Synthesizer (43_synthesizer.md) -/

/-- Step 2: the left layer is 1 while `LFK` is pressed, else 0. -/
def Obligations.LeftLayerFollowsFunctionKey : Prop :=
  ∀ s : State, configValid s.cfg = true →
    (s.din.getLsbD s.cfg.lfk = true → cycleLeft s = 1) ∧ (s.din.getLsbD s.cfg.lfk = false → cycleLeft s = 0)

/-- Step 3: the override, else the first pressed function key in priority order, else 0. -/
def Obligations.RightLayerFirstMatchWins : Prop :=
  (∀ (c : Config) (right : RightBits), rightLayer c 1 right = 1) ∧
  (∀ (c : Config) (ll : Layer) (right : RightBits) (before after : List FnKey) (k : FnKey), ll ≠ 1 →
    c.rfk = before ++ k :: after → (∀ q ∈ before, right.getLsbD q.pos = false) → right.getLsbD k.pos = true →
    rightLayer c ll right = k.layer) ∧
  (∀ (c : Config) (ll : Layer) (right : RightBits), ll ≠ 1 → (∀ q ∈ c.rfk, right.getLsbD q.pos = false) →
    rightLayer c ll right = 0)

/-- What a cycle reports: each buffer holds, in order and cut at its capacity, the codes of the emitting left positions,
then of the emitting right positions, then (primary only) the combination codes. -/
def Obligations.CycleReportsCodesInOrder : Prop :=
  ∀ s : State, cycleAllowed s.cfg = true → BlockInv s → ∃ t, exec .synCycle s = .next t ∧
    t.rbP.len.toNat = min (cyclePrimary s).length s.cfg.capP ∧
    t.rbP.slot.take t.rbP.len.toNat = (cyclePrimary s).take s.cfg.capP ∧
    t.rbS.len.toNat = min (cycleSecondary s).length s.cfg.capS ∧
    t.rbS.slot.take t.rbS.len.toNat = (cycleSecondary s).take s.cfg.capS

/-- The tail of a report: a buffer that got shorter than it was holds its sentinel from the new length to the capacity,
any other keeps its slots there. -/
def Obligations.CycleFillsShorterReport : Prop :=
  ∀ s t : State, BlockInv s → exec .synCycle s = .next t →
    (∀ i, t.rbP.len.toNat ≤ i → i < s.cfg.capP →
      t.rbP.slot[i]? = if t.rbP.len.toNat < s.rbP.len.toNat then some s.cfg.sentP else s.rbP.slot[i]?) ∧
    (∀ i, t.rbS.len.toNat ≤ i → i < s.cfg.capS →
      t.rbS.slot[i]? = if t.rbS.len.toNat < s.rbS.len.toNat then some s.cfg.sentS else s.rbS.slot[i]?)

/-- Layers and masks after a cycle: the layers are this cycle's; a position is blocked exactly when it is pressed and
either its half's layer changed or it was blocked before. With the left function key pressed both layers are 1,
whichever right function keys are held (cross-half override). Beside these a cycle writes the two buffers and nothing else
(DOUT and ERR are as before). -/
def Obligations.CycleUpdatesLayersAndMasks : Prop :=
  ∀ s : State, cycleAllowed s.cfg = true → ∃ t, exec .synCycle s = .next t ∧
    t.layerL = cycleLeft s ∧ t.layerR = cycleRight s ∧
    (∀ p, p < 30 → t.maskL.getLsbD p =
      (s.din.getLsbD p && (cycleLeft s != s.layerL || s.maskL.getLsbD p))) ∧
    (∀ p, p < 29 → t.maskR.getLsbD p =
      (s.bw.getLsbD p && (cycleRight s != s.layerR || s.maskR.getLsbD p))) ∧
    (s.din.getLsbD s.cfg.lfk = true → t.layerL = 1 ∧ t.layerR = 1) ∧
    t = { s with rbP := t.rbP, rbS := t.rbS, layerL := t.layerL, layerR := t.layerR, maskL := t.maskL,
                 maskR := t.maskR }

/-- Blocking invariant, along a run: a position pressed in a cycle in which its half's layer changes is not emitted in
that cycle nor in any later one, up to the first cycle in which it is not pressed. That a cycle comes when SYN.CYCLE is
the host's next action rests on the model's list of actions (log entry 3). -/
def Obligations.BlockedUntilReleased : Prop :=
  ∀ (run : Nat → State) (n : Nat), (∀ k, k ≤ n → step (run k) = .next (run (k + 1))) → CycleNext (run 0) →
    (∀ p, p < 30 → cycleLeft (run 0) ≠ (run 0).layerL →
      (∀ k, k ≤ n → CycleNext (run k) → (leftMatrix (run k)).getLsbD p = true) →
      ∀ k, k ≤ n → CycleNext (run k) → emitsLeft (run k) p = false) ∧
    (∀ p, p < 29 → cycleRight (run 0) ≠ (run 0).layerR →
      (∀ k, k ≤ n → CycleNext (run k) → (rightMatrix (run k)).getLsbD p = true) →
      ∀ k, k ≤ n → CycleNext (run k) → emitsRight (run k) p = false)

/-- The left function key's own layout entries are never pushed: the key is blocked whenever the stored left layer is
not 0, which reset establishes and every step keeps. -/
def Obligations.FunctionKeyNeverEmitted : Prop :=
  (∀ c : Config, FunctionKeyBlocked (State.resetWith c)) ∧
  (∀ s t : State, FunctionKeyBlocked s → step s = .next t → FunctionKeyBlocked t) ∧
  (∀ s : State, configValid s.cfg = true → FunctionKeyBlocked s → emitsLeft s s.cfg.lfk = false)

/-- Sentinel tail: every slot at or above the length holds its sentinel at reset, and every command but RB.CLEAR,
RB.PUSH and RB.FILL keeps it so. -/
def Obligations.SentinelTailKept : Prop :=
  (∀ c : Config, SentinelTail (State.resetWith c)) ∧
  ∀ (i : Instr) (s t : State), (∀ sel, i ≠ .rbClear sel) → (∀ sel c, i ≠ .rbPush sel c) →
    (∀ sel f c, i ≠ .rbFill sel f c) → BlockInv s → SentinelTail s → exec i s = .next t → SentinelTail t

/-- Determinism of a cycle: it is a function of DIN[29:0], BW[28:0], the state R140 lists and the configuration; nothing
else is read. -/
def Obligations.CycleReadsOnlyItsOperands : Prop :=
  ∀ s s' : State, cycleAllowed s.cfg = true → s.cfg = s'.cfg →
    s.din.extractLsb' 0 30 = s'.din.extractLsb' 0 30 → s.bw.extractLsb' 0 29 = s'.bw.extractLsb' 0 29 →
    s.rbP = s'.rbP → s.rbS = s'.rbS → s.layerL = s'.layerL → s.layerR = s'.layerR →
    s.maskL = s'.maskL → s.maskR = s'.maskR →
    ∃ t t', exec .synCycle s = .next t ∧ exec .synCycle s' = .next t' ∧
      t.rbP = t'.rbP ∧ t.rbS = t'.rbS ∧ t.layerL = t'.layerL ∧ t.layerR = t'.layerR ∧
      t.maskL = t'.maskL ∧ t.maskR = t'.maskR

/-- Repeating a cycle at once with the same DIN and BW changes nothing, as the operation rules R141 to R151 give it. R59
lists SYN.CYCLE among the commands whose repeat can differ; the model follows the operation rules, under which a repeat
later in a run can (ObserversAndIdempotentCommands; log entry 9). -/
def Obligations.RepeatedCycleChangesNothing : Prop :=
  ∀ s t : State, BlockInv s → exec .synCycle s = .next t → exec .synCycle t = .next t

/-- Table lookups are exhaustive: under a valid configuration every position a cycle looks up, on the layer it computes,
has a layout entry. -/
def Obligations.LayoutLookupsExist : Prop :=
  ∀ s : State, configValid s.cfg = true →
    (∀ p, p < 30 → (lookupLeft s.cfg (cycleLeft s) p).isSome = true) ∧
    (∀ p, p < 29 → (lookupRight s.cfg (cycleRight s) p).isSome = true)

/-- SYN.READ: the layer or mask that WHICH names, zero-extended, mask position p at DOUT[p]. -/
def Obligations.SynReadShowsLayersAndMasks : Prop :=
  (encode (.synRead .layerL) = 0x41000000#32 ∧ encode (.synRead .layerR) = 0x41000001#32 ∧
    encode (.synRead .maskL) = 0x41000002#32 ∧ encode (.synRead .maskR) = 0x41000003#32) ∧
  ∀ s : State,
    (∃ t, exec (.synRead .layerL) s = .next t ∧ t.dout.toNat = s.layerL.toNat ∧ t = { s with dout := t.dout }) ∧
    (∃ t, exec (.synRead .layerR) s = .next t ∧ t.dout.toNat = s.layerR.toNat ∧ t = { s with dout := t.dout }) ∧
    (∃ t, exec (.synRead .maskL) s = .next t ∧
      (∀ j, j < 64 → t.dout.getLsbD j = (decide (j < 30) && s.maskL.getLsbD j)) ∧ t = { s with dout := t.dout }) ∧
    (∃ t, exec (.synRead .maskR) s = .next t ∧
      (∀ j, j < 64 → t.dout.getLsbD j = (decide (j < 29) && s.maskR.getLsbD j)) ∧ t = { s with dout := t.dout })

/-! ### Status and errors (44_status.md, 60_exceptions.md) -/

/-- STAT.READ: `DOUT <- zext_64(ERR)`, ILL at DOUT[0] and IDX at DOUT[1]; ERR is not changed. -/
def Obligations.StatReadShowsErr : Prop :=
  encode .statRead = 0xF0000000#32 ∧
  ∀ s : State, ∃ t, exec .statRead s = .next t ∧ t.dout.getLsbD 0 = s.err.getLsbD 0 ∧
    t.dout.getLsbD 1 = s.err.getLsbD 1 ∧ t.dout.extractLsb' 2 62 = 0 ∧ t = { s with dout := t.dout }

/-- Both ERR bits are sticky: no step clears one, whether its command succeeds or errs. -/
def Obligations.ErrBitsAreSticky : Prop :=
  ∀ (s t : State) (k : Nat), step s = .next t → s.err.getLsbD k = true → t.err.getLsbD k = true

/-- Which command raises which error: decoding comes first, so an illegal word raises ILL only; a legal word raises IDX at
most, exactly in the cases of R185, and then nothing but that bit changes; otherwise ERR stays. -/
def Obligations.ErrorsRaisedExactly : Prop :=
  (∀ (s t : State) (w : CmdWord), issue w s = .next t →
    match decode w with
    | .error _ => SetsOnlyErrBit 0 s t
    | .ok i => if indexOutOfRange i s then SetsOnlyErrBit 1 s t else t.err = s.err) ∧
  ∀ (i : Instr) (s : State), indexOutOfRange i s = true → ∃ t, exec i s = .next t

/-- R41's table: a command leaves every register it is not listed as writing, and what it writes depends only on the
registers it is listed as reading (a register it writes is either set alike in two states that agree on those, or left
alone in both). -/
def Obligations.AccessTableHolds : Prop :=
  ∀ (i : Instr) (s t : State), exec i s = .next t →
    t.cfg = s.cfg ∧ t.host = s.host ∧
    (∀ r, r ∉ regsWritten i → r ≠ .err → SameReg r t s) ∧
    ∀ s' : State, s'.cfg = s.cfg → (∀ r ∈ regsRead i, SameReg r s' s) →
      ∃ t', exec i s' = .next t' ∧
        (∀ r ∈ regsWritten i, SameReg r t' t ∨ (SameReg r t' s' ∧ SameReg r t s)) ∧
        ((t'.err = s'.err ∧ t.err = s.err) ∨ (t'.err = s'.err ||| 2 ∧ t.err = s.err ||| 2))

/-- Commands that only observe: they write only DOUT (or the ERR bit of a raised IDX), and issued twice in a row they
give the same DOUT. Commands that may be repeated: issued again with the same inputs they change nothing more. Commands
that are not idempotent: from some state that meets the invariant FR.RXB, and RB.PUSH, issued twice in a row differ from
issued once; SYN.CYCLE repeated later in a run with the same DIN and BW, another cycle standing between, can report
another length than it did the first time (log entry 9: repeated at once it changes nothing). -/
def Obligations.ObserversAndIdempotentCommands : Prop :=
  (∀ (idx : BitVec 6) (sel : Sel) (ix : BitVec 7) (which : Which),
    ∀ i ∈ [.bwGet idx, .bwGetraw, .cdEnc, .cdDec, .frRdval, .frStat, .rbLen sel, .rbRead sel ix, .synRead which,
      .statRead],
    ∀ s t : State, exec i s = .next t → t = { s with dout := t.dout, err := t.err } ∧
      ∃ u, exec i t = .next u ∧ u.dout = t.dout) ∧
  (∀ (idx : BitVec 6) (v : Bool) (sel : Sel) (ix : BitVec 7) (code : BitVec 16),
    ∀ i ∈ [.bwNew, .bwSet idx v, .bwSetraw, .bwClear, .bwLdrx, .rbClear sel, .rbFill sel ix code],
    ∀ s t : State, exec i s = .next t → exec i t = .next t) ∧
  (∃ (b : Byte) (s t u : State), BlockInv s ∧
    exec (.frRxb b) s = .next t ∧ exec (.frRxb b) t = .next u ∧ u.frFill ≠ t.frFill) ∧
  (∃ (sel : Sel) (code : BitVec 16) (s t u : State), BlockInv s ∧
    exec (.rbPush sel code) s = .next t ∧ exec (.rbPush sel code) t = .next u ∧ bufferLen u sel ≠ bufferLen t sel) ∧
  ∃ (other : Data) (s t u v : State), BlockInv s ∧ exec .synCycle s = .next t ∧
    exec .synCycle (hostWriteDin other t) = .next u ∧ exec .synCycle (hostWriteDin s.din u) = .next v ∧
    v.bw = s.bw ∧ v.rbP.len ≠ t.rbP.len

/-! ### Reset, invariant and host protocol (10_state.md, 70_reset_and_hazards.md) -/

/-- Every element of state after reset, under every configuration. -/
def Obligations.ResetValues : Prop :=
  ∀ c : Config, let s := State.resetWith c
    s.din = 0 ∧ s.dout = 0 ∧ s.bw = 0 ∧ (∀ (i : Nat) (h : i < 5), s.frBuf[i] = 0) ∧ s.frFill = 0 ∧ s.rxValue = 0 ∧
    s.rbP.len = 0 ∧ s.rbS.len = 0 ∧ s.rbP.slot.length = c.capP ∧ s.rbS.slot.length = c.capS ∧
    (∀ i, i < c.capP → s.rbP.slot[i]? = some c.sentP) ∧ (∀ i, i < c.capS → s.rbS.slot[i]? = some c.sentS) ∧
    s.layerL = 0 ∧ s.layerR = 0 ∧ (∀ p, p < 30 → s.maskL.getLsbD p = false) ∧
    (∀ p, p < 29 → s.maskR.getLsbD p = false) ∧ s.err = 0 ∧ s.cfg = c

/-- The invariant holds after reset under every valid configuration, and the model's own reset state has a valid
configuration (the choice of TC is the model's, log entry 2). -/
def Obligations.ResetMeetsInvariant : Prop :=
  (∀ c : Config, configValid c = true → BlockInv (State.resetWith c)) ∧
    configValid State.reset.cfg = true ∧ BlockInv State.reset ∧ ErrFree State.reset

/-- Every step keeps the invariant: BW fits W bits, FR_FILL stays in 0..4, each buffer keeps its CAP slots and a length
of at most CAP, LAYER_L stays 0 or 1 and LAYER_R below `NL_R`. -/
def Obligations.StepKeepsInvariant : Prop :=
  ∀ s t : State, BlockInv s → step s = .next t → BlockInv t

/-- No command stalls or stops: in a state that meets the invariant, under a valid configuration, every step answers a
next state, but for SYN.CYCLE with W < 29; with no action of the host to perform the block stays as it is. The list of
actions and this idling are the model's choice (log entry 3). -/
def Obligations.NoStepStalls : Prop :=
  (∀ s : State, configValid s.cfg = true → BlockInv s → (CycleNext s → 29 ≤ s.cfg.bwW) → ∃ t, step s = .next t) ∧
  ∀ s : State, configValid s.cfg = true → s.host = [] → step s = .next s

/-- The wire path end to end: the scan the sending half encodes, sent as its five bytes to a receiving half in any state
and loaded there by BW.LDRX, is the right matrix register's value, cut to W bits. -/
def Obligations.WirePathDelivers : Prop :=
  ∀ (sender receiver : State) (scan : Payload), ∃ t u,
    exec .cdEnc (hostWriteDin (scan.setWidth 64) sender) = .next t ∧
    runCommands ((sentBytes t.dout).map .frRxb ++ [.bwLdrx]) receiver = .next u ∧
    u.rxValue = scan ∧ u.frFill = 0 ∧ u.err = receiver.err ∧
    ∀ j, j < 64 → u.bw.getLsbD j = (decide (j < receiver.cfg.bwW) && scan.getLsbD j)

/-- One iteration of the receiving half's loop runs to its end: every action completes, no error is raised, and the
buffers, layers and masks are those of the one cycle in it, run on the given left matrix and the latest wire value.
That the iteration's actions stand in the state as a list is the model's choice (log entry 3). -/
def Obligations.ReceivingIterationCompletes : Prop :=
  ∀ (s : State) (byte : Option Byte) (left : LeftBits), cycleAllowed s.cfg = true → BlockInv s →
    s.host = receivingIteration s.cfg byte left →
    ∃ r b t u, runCommands (byte.toList.map .frRxb) { s with host := [] } = .next r ∧
      exec .bwLdrx r = .next b ∧ exec .synCycle (hostWriteDin (left.setWidth 64) b) = .next t ∧
      core.run s.host.length s = .next u ∧ u = { t with dout := u.dout } ∧ u.err = s.err
end

