-- ==== Sys2Proof/Laws/Bits.lean ====
section
/-! SUPPORT. What the bit-field operations of Operands.lean, Ops.lean and BitWord.lean do, bit by bit. -/

namespace Sys2Proof.Machine

@[simp] theorem getLsbD_lowBits (n : Nat) (v : Data) (j : Nat) :
    (lowBits n v).getLsbD j = (decide (j < n) && v.getLsbD j) := by
  by_cases h : j < 64
  · simp [lowBits, h]
  · simp [lowBits, h, BitVec.getLsbD_of_ge v j (by omega)]

@[simp] theorem getElem_lowBits (n : Nat) (v : Data) (j : Nat) (h : j < 64) :
    (lowBits n v)[j] = (decide (j < n) && v.getLsbD j) := by
  rw [← BitVec.getLsbD_eq_getElem h, getLsbD_lowBits]

theorem lowBits_lowBits (n : Nat) (v : Data) : lowBits n (lowBits n v) = lowBits n v := by
  apply BitVec.eq_of_getLsbD_eq
  intro j _
  simp

theorem lowBits_zero (n : Nat) : lowBits n 0 = 0 := by simp [lowBits]

theorem boolData_eq (b : Bool) : boolData b = if b then 1 else 0 := by cases b <;> rfl

@[simp] theorem getLsbD_clearBit {n : Nat} (v : BitVec n) (p j : Nat) :
    (clearBit v p).getLsbD j = (v.getLsbD j && decide (j ≠ p)) := by
  by_cases hj : j < n
  · by_cases h : j = p
    · subst h; simp [clearBit, hj]
    · by_cases hp : j < p
      · simp [clearBit, hj, h, hp]
      · have : j - p ≠ 0 := by omega
        simp [clearBit, hj, h, this]
  · simp [clearBit, hj, BitVec.getLsbD_of_ge v j (by omega)]

@[simp] theorem getElem_clearBit {n : Nat} (v : BitVec n) (p j : Nat) (h : j < n) :
    (clearBit v p)[j] = (v[j] && decide (j ≠ p)) := by
  rw [← BitVec.getLsbD_eq_getElem h, getLsbD_clearBit, BitVec.getLsbD_eq_getElem h]

theorem getLsbD_withBit (v : Data) (idx : Nat) (val : Bool) (j : Nat) (hj : j < 64) :
    (withBit v idx val).getLsbD j = if j = idx then val else v.getLsbD j := by
  unfold withBit
  rw [BitVec.getLsbD_or, getLsbD_clearBit, BitVec.getLsbD_shiftLeft, boolData]
  by_cases h : j = idx
  · subst h; cases val <;> simp [hj]
  · rcases Nat.lt_or_ge j idx with hlt | hge
    · simp [h, hlt]
    · have : j - idx ≠ 0 := by omega
      simp [h, BitVec.getLsbD_ofBool, this]

theorem getLsbD_frameGroup (v : Payload) (i k : Nat) :
    (frameGroup v i).getLsbD k = (decide (k < 7) && v.getLsbD (7 * i + k)) := by
  have hm : ∀ k, k < 8 → (0x7F : Payload).getLsbD k = decide (k < 7) := by decide
  by_cases hk : k < 8
  · simp only [frameGroup, BitVec.getLsbD_setWidth, BitVec.getLsbD_and, BitVec.getLsbD_ushiftRight, hm k hk]
    simp [hk, Bool.and_comm]
  · have : ¬ k < 7 := by omega
    simp [frameGroup, hk, this]

theorem getLsbD_payloadGroup (b : Byte) (i j : Nat) :
    (payloadGroup b i).getLsbD j =
      (decide (j < 35) && decide (7 * i ≤ j) && decide (j < 7 * i + 7) && b.getLsbD (j - 7 * i)) := by
  have hm : ∀ k, k < 8 → (0x7F : Byte).getLsbD k = decide (k < 7) := by decide
  unfold payloadGroup
  simp only [BitVec.getLsbD_shiftLeft, BitVec.getLsbD_setWidth, BitVec.getLsbD_and]
  by_cases h1 : j < 35 <;> by_cases h2 : j < 7 * i
  · simp [h1, h2, Nat.not_le.mpr h2]
  · by_cases h3 : j - 7 * i < 8
    · have : (j - 7 * i < 7) = (j < 7 * i + 7) := by apply propext; omega
      have h4 : j - 7 * i < 35 := by omega
      simp only [hm _ h3, this]
      simp [h1, h2, h4, Nat.le_of_not_lt h2, Bool.and_comm]
    · have h4 : ¬ j < 7 * i + 7 := by omega
      simp [h1, h2, h4, BitVec.getLsbD_of_ge b (j - 7 * i) (by omega)]
  · simp [h1]
  · simp [h1]

end Sys2Proof.Machine
end

