-- ==== Sys2Proof/Laws/Buffers.lean ====
section
/-! SUPPORT. What the report buffer operations do (42_report_buffer.md R130 to R132), said once: the length and each slot
after a clear, a push, a run of pushes and a fill. -/

namespace Sys2Proof.Machine.ReportBuffer

variable {w : Nat}

@[simp] theorem clear_len (b : ReportBuffer w) : b.clear.len = 0 := rfl
@[simp] theorem clear_slot (b : ReportBuffer w) : b.clear.slot = b.slot := rfl

/-! ### push -/

theorem push_full {cap : Nat} {b : ReportBuffer w} (c : BitVec w) (h : cap ≤ b.len.toNat) : b.push cap c = b := by
  simp [push, Nat.not_lt.mpr h]

theorem push_slot_of_lt {cap : Nat} {b : ReportBuffer w} (c : BitVec w) (h : b.len.toNat < cap) :
    (b.push cap c).slot = b.slot.set b.len.toNat c := by simp [push, h]

theorem push_len_of_lt {cap : Nat} {b : ReportBuffer w} (c : BitVec w) (h : b.len.toNat < cap) (hc : cap ≤ 127) :
    (b.push cap c).len.toNat = b.len.toNat + 1 := by
  have : b.len.toNat + 1 < 128 := by omega
  simp [push, h, BitVec.toNat_add, Nat.mod_eq_of_lt this]

@[simp] theorem push_slot_length (cap : Nat) (c : BitVec w) (b : ReportBuffer w) :
    (b.push cap c).slot.length = b.slot.length := by
  unfold push; split <;> simp

theorem push_len_le {cap : Nat} {b : ReportBuffer w} (c : BitVec w) (h : b.len.toNat ≤ cap) (hc : cap ≤ 127) :
    (b.push cap c).len.toNat ≤ cap := by
  rcases Nat.lt_or_ge b.len.toNat cap with hlt | hge
  · rw [push_len_of_lt c hlt hc]; exact hlt
  · rw [push_full c hge]; exact h

/-! ### A run of pushes -/

/-- Codes pushed one after the other. -/
def pushes (cap : Nat) (cs : List (BitVec w)) (b : ReportBuffer w) : ReportBuffer w :=
  cs.foldl (fun b c => b.push cap c) b

@[simp] theorem pushes_nil (cap : Nat) (b : ReportBuffer w) : pushes cap [] b = b := rfl

@[simp] theorem pushes_cons (cap : Nat) (c : BitVec w) (cs : List (BitVec w)) (b : ReportBuffer w) :
    pushes cap (c :: cs) b = pushes cap cs (b.push cap c) := rfl

theorem pushes_append (cap : Nat) (cs ds : List (BitVec w)) (b : ReportBuffer w) :
    pushes cap (cs ++ ds) b = pushes cap ds (pushes cap cs b) := by
  simp [pushes, List.foldl_append]

@[simp] theorem pushes_slot_length (cap : Nat) (cs : List (BitVec w)) (b : ReportBuffer w) :
    (pushes cap cs b).slot.length = b.slot.length := by
  induction cs generalizing b with
  | nil => rfl
  | cons c cs ih => simp [ih]

theorem pushes_len {cap : Nat} (hc : cap ≤ 127) (cs : List (BitVec w)) {b : ReportBuffer w}
    (h : b.len.toNat ≤ cap) : (pushes cap cs b).len.toNat = min (b.len.toNat + cs.length) cap := by
  induction cs generalizing b with
  | nil => simpa using h
  | cons c cs ih =>
    rw [pushes_cons, ih (push_len_le c h hc), List.length_cons]
    rcases Nat.lt_or_ge b.len.toNat cap with hlt | hge
    · rw [push_len_of_lt c hlt hc]; omega
    · rw [push_full c hge]; omega

/-- Each slot after a run of pushes: below the old length and from the new length up as before, the pushed codes in
order between. -/
theorem pushes_slot {cap : Nat} (hc : cap ≤ 127) (cs : List (BitVec w)) {b : ReportBuffer w}
    (h : b.len.toNat ≤ cap) (hs : b.slot.length = cap) (i : Nat) :
    (pushes cap cs b).slot[i]? =
      if b.len.toNat ≤ i ∧ i < min (b.len.toNat + cs.length) cap then cs[i - b.len.toNat]? else b.slot[i]? := by
  induction cs generalizing b with
  | nil => rw [pushes_nil, if_neg]; simp only [List.length_nil]; omega
  | cons c cs ih =>
    rw [pushes_cons]
    rcases Nat.lt_or_ge b.len.toNat cap with hlt | hge
    · rw [ih (push_len_le c h hc) (by simp [hs]), push_len_of_lt c hlt hc, push_slot_of_lt c hlt, List.length_cons,
        List.getElem?_set]
      by_cases h1 : b.len.toNat = i
      · rw [if_neg (by omega), if_pos h1, if_pos (by omega), if_pos (by omega)]
        simp [← h1]
      · by_cases h2 : b.len.toNat + 1 ≤ i ∧ i < min (b.len.toNat + 1 + cs.length) cap
        · rw [if_pos h2, if_pos (by omega), show i - b.len.toNat = (i - (b.len.toNat + 1)) + 1 by omega,
            List.getElem?_cons_succ]
        · rw [if_neg h2, if_neg h1, if_neg (by omega)]
    · rw [push_full c hge, ih h hs, if_neg (by omega), if_neg (by omega)]

/-! ### fill -/

@[simp] theorem fill_len (cap : Nat) (c : BitVec w) (f : Nat) (b : ReportBuffer w) :
    (b.fill cap c f).len = b.len := rfl

theorem foldl_set_length (c : BitVec w) (l : List Nat) (slots : List (BitVec w)) :
    (l.foldl (fun slots i => slots.set i c) slots).length = slots.length := by
  induction l generalizing slots with
  | nil => rfl
  | cons i l ih => simp [ih]

theorem foldl_set_slot (c : BitVec w) (l : List Nat) (slots : List (BitVec w)) (i : Nat) :
    (l.foldl (fun slots i => slots.set i c) slots)[i]? =
      if i ∈ l ∧ i < slots.length then some c else slots[i]? := by
  induction l generalizing slots with
  | nil => simp
  | cons k l ih =>
    rw [List.foldl_cons, ih, List.length_set, List.getElem?_set]
    by_cases h : i < slots.length <;> by_cases hk : k = i <;> by_cases hm : i ∈ l <;>
      simp [h, hk, hm, eq_comm (a := i)]

@[simp] theorem fill_slot_length (cap : Nat) (c : BitVec w) (f : Nat) (b : ReportBuffer w) :
    (b.fill cap c f).slot.length = b.slot.length := foldl_set_length c _ b.slot

/-- Each slot after a fill: the code from `f` up to the capacity, as before elsewhere. -/
theorem fill_slot {cap : Nat} (c : BitVec w) (f : Nat) {b : ReportBuffer w} (hs : b.slot.length = cap) (i : Nat) :
    (b.fill cap c f).slot[i]? = if f ≤ i ∧ i < cap then some c else b.slot[i]? := by
  unfold fill
  rw [foldl_set_slot]
  have : (i ∈ List.range' f (cap - f) ∧ i < b.slot.length) ↔ (f ≤ i ∧ i < cap) := by
    rw [List.mem_range'_1]; omega
  simp only [this]

end Sys2Proof.Machine.ReportBuffer
end

