-- ==== Sys2Proof/Laws/State.lean ====
section
/-! SUPPORT. One lemma per field per register update of Machine/Ops.lean: the updated field holds the value, every other
field is as before. With them no proof unfolds a record update. -/

namespace Sys2Proof.Machine.State

variable (s : State)

/-! ### setHost -/

@[simp] theorem setHost_cfg (v : List HostAction) : (s.setHost v).cfg = s.cfg := rfl
@[simp] theorem setHost_host (v : List HostAction) : (s.setHost v).host = v := rfl
@[simp] theorem setHost_din (v : List HostAction) : (s.setHost v).din = s.din := rfl
@[simp] theorem setHost_dout (v : List HostAction) : (s.setHost v).dout = s.dout := rfl
@[simp] theorem setHost_bw (v : List HostAction) : (s.setHost v).bw = s.bw := rfl
@[simp] theorem setHost_frBuf (v : List HostAction) : (s.setHost v).frBuf = s.frBuf := rfl
@[simp] theorem setHost_frFill (v : List HostAction) : (s.setHost v).frFill = s.frFill := rfl
@[simp] theorem setHost_rxValue (v : List HostAction) : (s.setHost v).rxValue = s.rxValue := rfl
@[simp] theorem setHost_rbP (v : List HostAction) : (s.setHost v).rbP = s.rbP := rfl
@[simp] theorem setHost_rbS (v : List HostAction) : (s.setHost v).rbS = s.rbS := rfl
@[simp] theorem setHost_layerL (v : List HostAction) : (s.setHost v).layerL = s.layerL := rfl
@[simp] theorem setHost_layerR (v : List HostAction) : (s.setHost v).layerR = s.layerR := rfl
@[simp] theorem setHost_maskL (v : List HostAction) : (s.setHost v).maskL = s.maskL := rfl
@[simp] theorem setHost_maskR (v : List HostAction) : (s.setHost v).maskR = s.maskR := rfl
@[simp] theorem setHost_err (v : List HostAction) : (s.setHost v).err = s.err := rfl

/-! ### setDin -/

@[simp] theorem setDin_cfg (v : Data) : (s.setDin v).cfg = s.cfg := rfl
@[simp] theorem setDin_host (v : Data) : (s.setDin v).host = s.host := rfl
@[simp] theorem setDin_din (v : Data) : (s.setDin v).din = v := rfl
@[simp] theorem setDin_dout (v : Data) : (s.setDin v).dout = s.dout := rfl
@[simp] theorem setDin_bw (v : Data) : (s.setDin v).bw = s.bw := rfl
@[simp] theorem setDin_frBuf (v : Data) : (s.setDin v).frBuf = s.frBuf := rfl
@[simp] theorem setDin_frFill (v : Data) : (s.setDin v).frFill = s.frFill := rfl
@[simp] theorem setDin_rxValue (v : Data) : (s.setDin v).rxValue = s.rxValue := rfl
@[simp] theorem setDin_rbP (v : Data) : (s.setDin v).rbP = s.rbP := rfl
@[simp] theorem setDin_rbS (v : Data) : (s.setDin v).rbS = s.rbS := rfl
@[simp] theorem setDin_layerL (v : Data) : (s.setDin v).layerL = s.layerL := rfl
@[simp] theorem setDin_layerR (v : Data) : (s.setDin v).layerR = s.layerR := rfl
@[simp] theorem setDin_maskL (v : Data) : (s.setDin v).maskL = s.maskL := rfl
@[simp] theorem setDin_maskR (v : Data) : (s.setDin v).maskR = s.maskR := rfl
@[simp] theorem setDin_err (v : Data) : (s.setDin v).err = s.err := rfl

/-! ### setDout -/

@[simp] theorem setDout_cfg (v : Data) : (s.setDout v).cfg = s.cfg := rfl
@[simp] theorem setDout_host (v : Data) : (s.setDout v).host = s.host := rfl
@[simp] theorem setDout_din (v : Data) : (s.setDout v).din = s.din := rfl
@[simp] theorem setDout_dout (v : Data) : (s.setDout v).dout = v := rfl
@[simp] theorem setDout_bw (v : Data) : (s.setDout v).bw = s.bw := rfl
@[simp] theorem setDout_frBuf (v : Data) : (s.setDout v).frBuf = s.frBuf := rfl
@[simp] theorem setDout_frFill (v : Data) : (s.setDout v).frFill = s.frFill := rfl
@[simp] theorem setDout_rxValue (v : Data) : (s.setDout v).rxValue = s.rxValue := rfl
@[simp] theorem setDout_rbP (v : Data) : (s.setDout v).rbP = s.rbP := rfl
@[simp] theorem setDout_rbS (v : Data) : (s.setDout v).rbS = s.rbS := rfl
@[simp] theorem setDout_layerL (v : Data) : (s.setDout v).layerL = s.layerL := rfl
@[simp] theorem setDout_layerR (v : Data) : (s.setDout v).layerR = s.layerR := rfl
@[simp] theorem setDout_maskL (v : Data) : (s.setDout v).maskL = s.maskL := rfl
@[simp] theorem setDout_maskR (v : Data) : (s.setDout v).maskR = s.maskR := rfl
@[simp] theorem setDout_err (v : Data) : (s.setDout v).err = s.err := rfl

/-! ### setBw -/

@[simp] theorem setBw_cfg (v : Data) : (s.setBw v).cfg = s.cfg := rfl
@[simp] theorem setBw_host (v : Data) : (s.setBw v).host = s.host := rfl
@[simp] theorem setBw_din (v : Data) : (s.setBw v).din = s.din := rfl
@[simp] theorem setBw_dout (v : Data) : (s.setBw v).dout = s.dout := rfl
@[simp] theorem setBw_bw (v : Data) : (s.setBw v).bw = lowBits s.cfg.bwW v := rfl
@[simp] theorem setBw_frBuf (v : Data) : (s.setBw v).frBuf = s.frBuf := rfl
@[simp] theorem setBw_frFill (v : Data) : (s.setBw v).frFill = s.frFill := rfl
@[simp] theorem setBw_rxValue (v : Data) : (s.setBw v).rxValue = s.rxValue := rfl
@[simp] theorem setBw_rbP (v : Data) : (s.setBw v).rbP = s.rbP := rfl
@[simp] theorem setBw_rbS (v : Data) : (s.setBw v).rbS = s.rbS := rfl
@[simp] theorem setBw_layerL (v : Data) : (s.setBw v).layerL = s.layerL := rfl
@[simp] theorem setBw_layerR (v : Data) : (s.setBw v).layerR = s.layerR := rfl
@[simp] theorem setBw_maskL (v : Data) : (s.setBw v).maskL = s.maskL := rfl
@[simp] theorem setBw_maskR (v : Data) : (s.setBw v).maskR = s.maskR := rfl
@[simp] theorem setBw_err (v : Data) : (s.setBw v).err = s.err := rfl

/-! ### setFrBuf -/

@[simp] theorem setFrBuf_cfg (v : Frame) : (s.setFrBuf v).cfg = s.cfg := rfl
@[simp] theorem setFrBuf_host (v : Frame) : (s.setFrBuf v).host = s.host := rfl
@[simp] theorem setFrBuf_din (v : Frame) : (s.setFrBuf v).din = s.din := rfl
@[simp] theorem setFrBuf_dout (v : Frame) : (s.setFrBuf v).dout = s.dout := rfl
@[simp] theorem setFrBuf_bw (v : Frame) : (s.setFrBuf v).bw = s.bw := rfl
@[simp] theorem setFrBuf_frBuf (v : Frame) : (s.setFrBuf v).frBuf = v := rfl
@[simp] theorem setFrBuf_frFill (v : Frame) : (s.setFrBuf v).frFill = s.frFill := rfl
@[simp] theorem setFrBuf_rxValue (v : Frame) : (s.setFrBuf v).rxValue = s.rxValue := rfl
@[simp] theorem setFrBuf_rbP (v : Frame) : (s.setFrBuf v).rbP = s.rbP := rfl
@[simp] theorem setFrBuf_rbS (v : Frame) : (s.setFrBuf v).rbS = s.rbS := rfl
@[simp] theorem setFrBuf_layerL (v : Frame) : (s.setFrBuf v).layerL = s.layerL := rfl
@[simp] theorem setFrBuf_layerR (v : Frame) : (s.setFrBuf v).layerR = s.layerR := rfl
@[simp] theorem setFrBuf_maskL (v : Frame) : (s.setFrBuf v).maskL = s.maskL := rfl
@[simp] theorem setFrBuf_maskR (v : Frame) : (s.setFrBuf v).maskR = s.maskR := rfl
@[simp] theorem setFrBuf_err (v : Frame) : (s.setFrBuf v).err = s.err := rfl

/-! ### setFrFill -/

@[simp] theorem setFrFill_cfg (v : BitVec 3) : (s.setFrFill v).cfg = s.cfg := rfl
@[simp] theorem setFrFill_host (v : BitVec 3) : (s.setFrFill v).host = s.host := rfl
@[simp] theorem setFrFill_din (v : BitVec 3) : (s.setFrFill v).din = s.din := rfl
@[simp] theorem setFrFill_dout (v : BitVec 3) : (s.setFrFill v).dout = s.dout := rfl
@[simp] theorem setFrFill_bw (v : BitVec 3) : (s.setFrFill v).bw = s.bw := rfl
@[simp] theorem setFrFill_frBuf (v : BitVec 3) : (s.setFrFill v).frBuf = s.frBuf := rfl
@[simp] theorem setFrFill_frFill (v : BitVec 3) : (s.setFrFill v).frFill = v := rfl
@[simp] theorem setFrFill_rxValue (v : BitVec 3) : (s.setFrFill v).rxValue = s.rxValue := rfl
@[simp] theorem setFrFill_rbP (v : BitVec 3) : (s.setFrFill v).rbP = s.rbP := rfl
@[simp] theorem setFrFill_rbS (v : BitVec 3) : (s.setFrFill v).rbS = s.rbS := rfl
@[simp] theorem setFrFill_layerL (v : BitVec 3) : (s.setFrFill v).layerL = s.layerL := rfl
@[simp] theorem setFrFill_layerR (v : BitVec 3) : (s.setFrFill v).layerR = s.layerR := rfl
@[simp] theorem setFrFill_maskL (v : BitVec 3) : (s.setFrFill v).maskL = s.maskL := rfl
@[simp] theorem setFrFill_maskR (v : BitVec 3) : (s.setFrFill v).maskR = s.maskR := rfl
@[simp] theorem setFrFill_err (v : BitVec 3) : (s.setFrFill v).err = s.err := rfl

/-! ### setRxValue -/

@[simp] theorem setRxValue_cfg (v : Payload) : (s.setRxValue v).cfg = s.cfg := rfl
@[simp] theorem setRxValue_host (v : Payload) : (s.setRxValue v).host = s.host := rfl
@[simp] theorem setRxValue_din (v : Payload) : (s.setRxValue v).din = s.din := rfl
@[simp] theorem setRxValue_dout (v : Payload) : (s.setRxValue v).dout = s.dout := rfl
@[simp] theorem setRxValue_bw (v : Payload) : (s.setRxValue v).bw = s.bw := rfl
@[simp] theorem setRxValue_frBuf (v : Payload) : (s.setRxValue v).frBuf = s.frBuf := rfl
@[simp] theorem setRxValue_frFill (v : Payload) : (s.setRxValue v).frFill = s.frFill := rfl
@[simp] theorem setRxValue_rxValue (v : Payload) : (s.setRxValue v).rxValue = v := rfl
@[simp] theorem setRxValue_rbP (v : Payload) : (s.setRxValue v).rbP = s.rbP := rfl
@[simp] theorem setRxValue_rbS (v : Payload) : (s.setRxValue v).rbS = s.rbS := rfl
@[simp] theorem setRxValue_layerL (v : Payload) : (s.setRxValue v).layerL = s.layerL := rfl
@[simp] theorem setRxValue_layerR (v : Payload) : (s.setRxValue v).layerR = s.layerR := rfl
@[simp] theorem setRxValue_maskL (v : Payload) : (s.setRxValue v).maskL = s.maskL := rfl
@[simp] theorem setRxValue_maskR (v : Payload) : (s.setRxValue v).maskR = s.maskR := rfl
@[simp] theorem setRxValue_err (v : Payload) : (s.setRxValue v).err = s.err := rfl

/-! ### setRbP -/

@[simp] theorem setRbP_cfg (v : ReportBuffer 8) : (s.setRbP v).cfg = s.cfg := rfl
@[simp] theorem setRbP_host (v : ReportBuffer 8) : (s.setRbP v).host = s.host := rfl
@[simp] theorem setRbP_din (v : ReportBuffer 8) : (s.setRbP v).din = s.din := rfl
@[simp] theorem setRbP_dout (v : ReportBuffer 8) : (s.setRbP v).dout = s.dout := rfl
@[simp] theorem setRbP_bw (v : ReportBuffer 8) : (s.setRbP v).bw = s.bw := rfl
@[simp] theorem setRbP_frBuf (v : ReportBuffer 8) : (s.setRbP v).frBuf = s.frBuf := rfl
@[simp] theorem setRbP_frFill (v : ReportBuffer 8) : (s.setRbP v).frFill = s.frFill := rfl
@[simp] theorem setRbP_rxValue (v : ReportBuffer 8) : (s.setRbP v).rxValue = s.rxValue := rfl
@[simp] theorem setRbP_rbP (v : ReportBuffer 8) : (s.setRbP v).rbP = v := rfl
@[simp] theorem setRbP_rbS (v : ReportBuffer 8) : (s.setRbP v).rbS = s.rbS := rfl
@[simp] theorem setRbP_layerL (v : ReportBuffer 8) : (s.setRbP v).layerL = s.layerL := rfl
@[simp] theorem setRbP_layerR (v : ReportBuffer 8) : (s.setRbP v).layerR = s.layerR := rfl
@[simp] theorem setRbP_maskL (v : ReportBuffer 8) : (s.setRbP v).maskL = s.maskL := rfl
@[simp] theorem setRbP_maskR (v : ReportBuffer 8) : (s.setRbP v).maskR = s.maskR := rfl
@[simp] theorem setRbP_err (v : ReportBuffer 8) : (s.setRbP v).err = s.err := rfl

/-! ### setRbS -/

@[simp] theorem setRbS_cfg (v : ReportBuffer 16) : (s.setRbS v).cfg = s.cfg := rfl
@[simp] theorem setRbS_host (v : ReportBuffer 16) : (s.setRbS v).host = s.host := rfl
@[simp] theorem setRbS_din (v : ReportBuffer 16) : (s.setRbS v).din = s.din := rfl
@[simp] theorem setRbS_dout (v : ReportBuffer 16) : (s.setRbS v).dout = s.dout := rfl
@[simp] theorem setRbS_bw (v : ReportBuffer 16) : (s.setRbS v).bw = s.bw := rfl
@[simp] theorem setRbS_frBuf (v : ReportBuffer 16) : (s.setRbS v).frBuf = s.frBuf := rfl
@[simp] theorem setRbS_frFill (v : ReportBuffer 16) : (s.setRbS v).frFill = s.frFill := rfl
@[simp] theorem setRbS_rxValue (v : ReportBuffer 16) : (s.setRbS v).rxValue = s.rxValue := rfl
@[simp] theorem setRbS_rbP (v : ReportBuffer 16) : (s.setRbS v).rbP = s.rbP := rfl
@[simp] theorem setRbS_rbS (v : ReportBuffer 16) : (s.setRbS v).rbS = v := rfl
@[simp] theorem setRbS_layerL (v : ReportBuffer 16) : (s.setRbS v).layerL = s.layerL := rfl
@[simp] theorem setRbS_layerR (v : ReportBuffer 16) : (s.setRbS v).layerR = s.layerR := rfl
@[simp] theorem setRbS_maskL (v : ReportBuffer 16) : (s.setRbS v).maskL = s.maskL := rfl
@[simp] theorem setRbS_maskR (v : ReportBuffer 16) : (s.setRbS v).maskR = s.maskR := rfl
@[simp] theorem setRbS_err (v : ReportBuffer 16) : (s.setRbS v).err = s.err := rfl

/-! ### setLayerL -/

@[simp] theorem setLayerL_cfg (v : Layer) : (s.setLayerL v).cfg = s.cfg := rfl
@[simp] theorem setLayerL_host (v : Layer) : (s.setLayerL v).host = s.host := rfl
@[simp] theorem setLayerL_din (v : Layer) : (s.setLayerL v).din = s.din := rfl
@[simp] theorem setLayerL_dout (v : Layer) : (s.setLayerL v).dout = s.dout := rfl
@[simp] theorem setLayerL_bw (v : Layer) : (s.setLayerL v).bw = s.bw := rfl
@[simp] theorem setLayerL_frBuf (v : Layer) : (s.setLayerL v).frBuf = s.frBuf := rfl
@[simp] theorem setLayerL_frFill (v : Layer) : (s.setLayerL v).frFill = s.frFill := rfl
@[simp] theorem setLayerL_rxValue (v : Layer) : (s.setLayerL v).rxValue = s.rxValue := rfl
@[simp] theorem setLayerL_rbP (v : Layer) : (s.setLayerL v).rbP = s.rbP := rfl
@[simp] theorem setLayerL_rbS (v : Layer) : (s.setLayerL v).rbS = s.rbS := rfl
@[simp] theorem setLayerL_layerL (v : Layer) : (s.setLayerL v).layerL = v := rfl
@[simp] theorem setLayerL_layerR (v : Layer) : (s.setLayerL v).layerR = s.layerR := rfl
@[simp] theorem setLayerL_maskL (v : Layer) : (s.setLayerL v).maskL = s.maskL := rfl
@[simp] theorem setLayerL_maskR (v : Layer) : (s.setLayerL v).maskR = s.maskR := rfl
@[simp] theorem setLayerL_err (v : Layer) : (s.setLayerL v).err = s.err := rfl

/-! ### setLayerR -/

@[simp] theorem setLayerR_cfg (v : Layer) : (s.setLayerR v).cfg = s.cfg := rfl
@[simp] theorem setLayerR_host (v : Layer) : (s.setLayerR v).host = s.host := rfl
@[simp] theorem setLayerR_din (v : Layer) : (s.setLayerR v).din = s.din := rfl
@[simp] theorem setLayerR_dout (v : Layer) : (s.setLayerR v).dout = s.dout := rfl
@[simp] theorem setLayerR_bw (v : Layer) : (s.setLayerR v).bw = s.bw := rfl
@[simp] theorem setLayerR_frBuf (v : Layer) : (s.setLayerR v).frBuf = s.frBuf := rfl
@[simp] theorem setLayerR_frFill (v : Layer) : (s.setLayerR v).frFill = s.frFill := rfl
@[simp] theorem setLayerR_rxValue (v : Layer) : (s.setLayerR v).rxValue = s.rxValue := rfl
@[simp] theorem setLayerR_rbP (v : Layer) : (s.setLayerR v).rbP = s.rbP := rfl
@[simp] theorem setLayerR_rbS (v : Layer) : (s.setLayerR v).rbS = s.rbS := rfl
@[simp] theorem setLayerR_layerL (v : Layer) : (s.setLayerR v).layerL = s.layerL := rfl
@[simp] theorem setLayerR_layerR (v : Layer) : (s.setLayerR v).layerR = v := rfl
@[simp] theorem setLayerR_maskL (v : Layer) : (s.setLayerR v).maskL = s.maskL := rfl
@[simp] theorem setLayerR_maskR (v : Layer) : (s.setLayerR v).maskR = s.maskR := rfl
@[simp] theorem setLayerR_err (v : Layer) : (s.setLayerR v).err = s.err := rfl

/-! ### setMaskL -/

@[simp] theorem setMaskL_cfg (v : LeftBits) : (s.setMaskL v).cfg = s.cfg := rfl
@[simp] theorem setMaskL_host (v : LeftBits) : (s.setMaskL v).host = s.host := rfl
@[simp] theorem setMaskL_din (v : LeftBits) : (s.setMaskL v).din = s.din := rfl
@[simp] theorem setMaskL_dout (v : LeftBits) : (s.setMaskL v).dout = s.dout := rfl
@[simp] theorem setMaskL_bw (v : LeftBits) : (s.setMaskL v).bw = s.bw := rfl
@[simp] theorem setMaskL_frBuf (v : LeftBits) : (s.setMaskL v).frBuf = s.frBuf := rfl
@[simp] theorem setMaskL_frFill (v : LeftBits) : (s.setMaskL v).frFill = s.frFill := rfl
@[simp] theorem setMaskL_rxValue (v : LeftBits) : (s.setMaskL v).rxValue = s.rxValue := rfl
@[simp] theorem setMaskL_rbP (v : LeftBits) : (s.setMaskL v).rbP = s.rbP := rfl
@[simp] theorem setMaskL_rbS (v : LeftBits) : (s.setMaskL v).rbS = s.rbS := rfl
@[simp] theorem setMaskL_layerL (v : LeftBits) : (s.setMaskL v).layerL = s.layerL := rfl
@[simp] theorem setMaskL_layerR (v : LeftBits) : (s.setMaskL v).layerR = s.layerR := rfl
@[simp] theorem setMaskL_maskL (v : LeftBits) : (s.setMaskL v).maskL = v := rfl
@[simp] theorem setMaskL_maskR (v : LeftBits) : (s.setMaskL v).maskR = s.maskR := rfl
@[simp] theorem setMaskL_err (v : LeftBits) : (s.setMaskL v).err = s.err := rfl

/-! ### setMaskR -/

@[simp] theorem setMaskR_cfg (v : RightBits) : (s.setMaskR v).cfg = s.cfg := rfl
@[simp] theorem setMaskR_host (v : RightBits) : (s.setMaskR v).host = s.host := rfl
@[simp] theorem setMaskR_din (v : RightBits) : (s.setMaskR v).din = s.din := rfl
@[simp] theorem setMaskR_dout (v : RightBits) : (s.setMaskR v).dout = s.dout := rfl
@[simp] theorem setMaskR_bw (v : RightBits) : (s.setMaskR v).bw = s.bw := rfl
@[simp] theorem setMaskR_frBuf (v : RightBits) : (s.setMaskR v).frBuf = s.frBuf := rfl
@[simp] theorem setMaskR_frFill (v : RightBits) : (s.setMaskR v).frFill = s.frFill := rfl
@[simp] theorem setMaskR_rxValue (v : RightBits) : (s.setMaskR v).rxValue = s.rxValue := rfl
@[simp] theorem setMaskR_rbP (v : RightBits) : (s.setMaskR v).rbP = s.rbP := rfl
@[simp] theorem setMaskR_rbS (v : RightBits) : (s.setMaskR v).rbS = s.rbS := rfl
@[simp] theorem setMaskR_layerL (v : RightBits) : (s.setMaskR v).layerL = s.layerL := rfl
@[simp] theorem setMaskR_layerR (v : RightBits) : (s.setMaskR v).layerR = s.layerR := rfl
@[simp] theorem setMaskR_maskL (v : RightBits) : (s.setMaskR v).maskL = s.maskL := rfl
@[simp] theorem setMaskR_maskR (v : RightBits) : (s.setMaskR v).maskR = v := rfl
@[simp] theorem setMaskR_err (v : RightBits) : (s.setMaskR v).err = s.err := rfl

/-! ### setErr -/

@[simp] theorem setErr_cfg (v : BitVec 2) : (s.setErr v).cfg = s.cfg := rfl
@[simp] theorem setErr_host (v : BitVec 2) : (s.setErr v).host = s.host := rfl
@[simp] theorem setErr_din (v : BitVec 2) : (s.setErr v).din = s.din := rfl
@[simp] theorem setErr_dout (v : BitVec 2) : (s.setErr v).dout = s.dout := rfl
@[simp] theorem setErr_bw (v : BitVec 2) : (s.setErr v).bw = s.bw := rfl
@[simp] theorem setErr_frBuf (v : BitVec 2) : (s.setErr v).frBuf = s.frBuf := rfl
@[simp] theorem setErr_frFill (v : BitVec 2) : (s.setErr v).frFill = s.frFill := rfl
@[simp] theorem setErr_rxValue (v : BitVec 2) : (s.setErr v).rxValue = s.rxValue := rfl
@[simp] theorem setErr_rbP (v : BitVec 2) : (s.setErr v).rbP = s.rbP := rfl
@[simp] theorem setErr_rbS (v : BitVec 2) : (s.setErr v).rbS = s.rbS := rfl
@[simp] theorem setErr_layerL (v : BitVec 2) : (s.setErr v).layerL = s.layerL := rfl
@[simp] theorem setErr_layerR (v : BitVec 2) : (s.setErr v).layerR = s.layerR := rfl
@[simp] theorem setErr_maskL (v : BitVec 2) : (s.setErr v).maskL = s.maskL := rfl
@[simp] theorem setErr_maskR (v : BitVec 2) : (s.setErr v).maskR = s.maskR := rfl
@[simp] theorem setErr_err (v : BitVec 2) : (s.setErr v).err = v := rfl

end Sys2Proof.Machine.State
end

