-- ==== Sys2Proof/Laws/Synthesizer.lean ====
section
/-! SUPPORT. What the steps of a cycle do (43_synthesizer.md R142 to R151), each said once, and their sum: `synCycle` in
closed form (`synCycle_eq`). Later proofs cite these and unfold no loop. -/

namespace Sys2Proof.Machine

open ReportBuffer (pushes)

/-! ### Pushing on both buffers -/

/-- The state in which the codes `ps` have been pushed into RB_P and `ss` into RB_S. -/
def withPushes (ps : List PCode) (ss : List SCode) (s : State) : State :=
  (s.setRbP (pushes s.cfg.capP ps s.rbP)).setRbS (pushes s.cfg.capS ss s.rbS)

@[simp] theorem withPushes_nil (s : State) : withPushes [] [] s = s := rfl

theorem withPushes_withPushes (ps ps' : List PCode) (ss ss' : List SCode) (s : State) :
    withPushes ps' ss' (withPushes ps ss s) = withPushes (ps ++ ps') (ss ++ ss') s := by
  simp [withPushes, ReportBuffer.pushes_append, State.setRbP, State.setRbS]

theorem withPushes_setMaskL (ps : List PCode) (ss : List SCode) (m : LeftBits) (s : State) :
    withPushes ps ss (s.setMaskL m) = (withPushes ps ss s).setMaskL m := rfl

theorem withPushes_setMaskR (ps : List PCode) (ss : List SCode) (m : RightBits) (s : State) :
    withPushes ps ss (s.setMaskR m) = (withPushes ps ss s).setMaskR m := rfl

@[simp] theorem withPushes_cfg (ps : List PCode) (ss : List SCode) (s : State) :
    (withPushes ps ss s).cfg = s.cfg := rfl
@[simp] theorem withPushes_maskL (ps : List PCode) (ss : List SCode) (s : State) :
    (withPushes ps ss s).maskL = s.maskL := rfl
@[simp] theorem withPushes_maskR (ps : List PCode) (ss : List SCode) (s : State) :
    (withPushes ps ss s).maskR = s.maskR := rfl
@[simp] theorem withPushes_rbP (ps : List PCode) (ss : List SCode) (s : State) :
    (withPushes ps ss s).rbP = pushes s.cfg.capP ps s.rbP := rfl
@[simp] theorem withPushes_rbS (ps : List PCode) (ss : List SCode) (s : State) :
    (withPushes ps ss s).rbS = pushes s.cfg.capS ss s.rbS := rfl

/-- R147: an entry is one push into the buffer of its kind. -/
theorem emit_eq (e : Option Entry) (s : State) :
    emit e s = withPushes (e.toList.filterMap Entry.primary?) (e.toList.filterMap Entry.secondary?) s := by
  rcases e with _ | (c | c) <;> rfl

theorem pushAllPrimary_eq (codes : List PCode) (s : State) : pushAllPrimary codes s = withPushes codes [] s := by
  unfold pushAllPrimary
  induction codes generalizing s with
  | nil => rfl
  | cons c cs ih => rw [List.foldl_cons, ih]; rfl

/-! ### Steps 6 and 7 -/

/-- The mask after the positions `l` have been visited: the released ones are unblocked. -/
def releaseAll {n : Nat} (pressed : BitVec n) (l : List Nat) (m : BitVec n) : BitVec n :=
  l.foldl (fun m p => if pressed.getLsbD p then m else clearBit m p) m

theorem getLsbD_releaseAll {n : Nat} (pressed : BitVec n) (l : List Nat) (m : BitVec n) (j : Nat) :
    (releaseAll pressed l m).getLsbD j = (m.getLsbD j && (pressed.getLsbD j || decide (j ∉ l))) := by
  induction l generalizing m with
  | nil => simp [releaseAll]
  | cons p l ih =>
    have : releaseAll pressed (p :: l) m = releaseAll pressed l (if pressed.getLsbD p then m else clearBit m p) := rfl
    rw [this, ih]
    by_cases hp : pressed.getLsbD p = true
    · by_cases hj : j = p
      · subst hj; simp [hp]
      · simp [hp, hj]
    · by_cases hj : j = p
      · subst hj; simp [hp]
      · simp [hp, hj]

/-- Visiting every position leaves blocked what is pressed and was blocked. -/
theorem releaseAll_range {n : Nat} (pressed m : BitVec n) : releaseAll pressed (List.range n) m = pressed &&& m := by
  apply BitVec.eq_of_getLsbD_eq
  intro j hj
  rw [getLsbD_releaseAll]
  simp [hj, Bool.and_comm]

/-- The entries that the positions `l` of a half emit: those pressed and not blocked. -/
def scannedEntries {n : Nat} (look : Nat → Option Entry) (pressed m : BitVec n) (l : List Nat) : List Entry :=
  (l.filter fun p => pressed.getLsbD p && !m.getLsbD p).filterMap look

theorem scannedEntries_clearBit {n : Nat} (look : Nat → Option Entry) (pressed m : BitVec n) (p : Nat)
    (hp : ¬ pressed.getLsbD p = true) (l : List Nat) :
    scannedEntries look pressed (clearBit m p) l = scannedEntries look pressed m l := by
  unfold scannedEntries
  congr 1
  apply List.filter_congr
  intro q _
  by_cases hq : q = p
  · subst hq; simp [hp]
  · simp [hq]

theorem scanLeft_list (ll : Layer) (left : LeftBits) (l : List Nat) (s : State) :
    l.foldl (scanLeftAt ll left) s =
      (withPushes ((scannedEntries (lookupLeft s.cfg ll) left s.maskL l).filterMap Entry.primary?)
        ((scannedEntries (lookupLeft s.cfg ll) left s.maskL l).filterMap Entry.secondary?) s).setMaskL
        (releaseAll left l s.maskL) := by
  induction l generalizing s with
  | nil => rfl
  | cons p l ih =>
    rw [List.foldl_cons, ih]
    by_cases hp : left.getLsbD p = true
    · by_cases hm : s.maskL.getLsbD p = true
      · simp [scanLeftAt, hp, hm, scannedEntries, releaseAll]
      · rw [scanLeftAt, if_pos hp, if_neg hm, emit_eq]
        simp only [withPushes_cfg, withPushes_maskL, withPushes_withPushes]
        rcases h : lookupLeft s.cfg ll p with _ | e <;>
          simp [scannedEntries, releaseAll, hp, hm, h, List.filterMap_cons]
        rcases e with c | c <;> simp [Entry.primary?, Entry.secondary?]
    · rw [scanLeftAt, if_neg hp]
      simp only [State.setMaskL_cfg, State.setMaskL_maskL, scannedEntries_clearBit _ _ _ _ hp, withPushes_setMaskL]
      simp [scannedEntries, releaseAll, hp, State.setMaskL]

theorem scanRight_list (rl : Layer) (right : RightBits) (l : List Nat) (s : State) :
    l.foldl (scanRightAt rl right) s =
      (withPushes ((scannedEntries (lookupRight s.cfg rl) right s.maskR l).filterMap Entry.primary?)
        ((scannedEntries (lookupRight s.cfg rl) right s.maskR l).filterMap Entry.secondary?) s).setMaskR
        (releaseAll right l s.maskR) := by
  induction l generalizing s with
  | nil => rfl
  | cons p l ih =>
    rw [List.foldl_cons, ih]
    by_cases hp : right.getLsbD p = true
    · by_cases hm : s.maskR.getLsbD p = true
      · simp [scanRightAt, hp, hm, scannedEntries, releaseAll]
      · rw [scanRightAt, if_pos hp, if_neg hm, emit_eq]
        simp only [withPushes_cfg, withPushes_maskR, withPushes_withPushes]
        rcases h : lookupRight s.cfg rl p with _ | e <;>
          simp [scannedEntries, releaseAll, hp, hm, h, List.filterMap_cons]
        rcases e with c | c <;> simp [Entry.primary?, Entry.secondary?]
    · rw [scanRightAt, if_neg hp]
      simp only [State.setMaskR_cfg, State.setMaskR_maskR, scannedEntries_clearBit _ _ _ _ hp, withPushes_setMaskR]
      simp [scannedEntries, releaseAll, hp, State.setMaskR]

/-- Step 6 in closed form (R148). -/
theorem scanLeft_eq (ll : Layer) (left : LeftBits) (s : State) :
    scanLeft ll left s =
      (withPushes ((scannedEntries (lookupLeft s.cfg ll) left s.maskL (List.range 30)).filterMap Entry.primary?)
        ((scannedEntries (lookupLeft s.cfg ll) left s.maskL (List.range 30)).filterMap Entry.secondary?) s).setMaskL
        (left &&& s.maskL) := by
  rw [scanLeft, scanLeft_list, releaseAll_range]

/-- Step 7 in closed form (R149). -/
theorem scanRight_eq (rl : Layer) (right : RightBits) (s : State) :
    scanRight rl right s =
      (withPushes ((scannedEntries (lookupRight s.cfg rl) right s.maskR (List.range 29)).filterMap Entry.primary?)
        ((scannedEntries (lookupRight s.cfg rl) right s.maskR (List.range 29)).filterMap Entry.secondary?) s).setMaskR
        (right &&& s.maskR) := by
  rw [scanRight, scanRight_list, releaseAll_range]

/-! ### Step 8 -/

/-- Step 8 in closed form (R150): pushes into RB_P change no mask, so every guard reads the same masks. -/
theorem combinations_eq (ll rl : Layer) (left : LeftBits) (right : RightBits) (s : State) :
    combinations ll rl left right s =
      withPushes (s.cfg.combos.flatMap fun k =>
        if guardHolds k.guard ⟨ll, rl, left, right, s.maskL, s.maskR⟩ then k.codes else []) [] s := by
  unfold combinations
  generalize s.cfg.combos = l
  induction l generalizing s with
  | nil => rfl
  | cons k l ih =>
    rw [List.foldl_cons, ih, applyCombo]
    split <;> simp_all [pushAllPrimary_eq, withPushes_withPushes]

/-! ### The whole cycle -/

theorem snapshotLeft_cases (ll : Layer) (left : LeftBits) (s : State) :
    snapshotLeft ll left s = (s.setLayerL ll).setMaskL (if ll = s.layerL then s.maskL else left) := by
  unfold snapshotLeft
  by_cases h : ll = s.layerL <;> simp [h, State.setLayerL, State.setMaskL]

theorem snapshotRight_cases (rl : Layer) (right : RightBits) (s : State) :
    snapshotRight rl right s = (s.setLayerR rl).setMaskR (if rl = s.layerR then s.maskR else right) := by
  unfold snapshotRight
  by_cases h : rl = s.layerR <;> simp [h, State.setLayerR, State.setMaskR]

/-- RB_P after the pushes of a cycle, before step 9. -/
def pushedP (s : State) : ReportBuffer 8 := pushes s.cfg.capP (cyclePrimary s) s.rbP.clear

/-- RB_S after the pushes of a cycle, before step 9. -/
def pushedS (s : State) : ReportBuffer 16 := pushes s.cfg.capS (cycleSecondary s) s.rbS.clear

/-- Step 9 on one buffer (R151). -/
def tailFilled {w : Nat} (cap : Nat) (sentinel : BitVec w) (prev : BitVec 7) (b : ReportBuffer w) : ReportBuffer w :=
  if b.len.toNat < prev.toNat then b.fill cap sentinel b.len.toNat else b

@[simp] theorem tailFilled_len {w : Nat} (cap : Nat) (sentinel : BitVec w) (prev : BitVec 7) (b : ReportBuffer w) :
    (tailFilled cap sentinel prev b).len = b.len := by
  unfold tailFilled; split <;> rfl

@[simp] theorem tailFilled_slot_length {w : Nat} (cap : Nat) (sentinel : BitVec w) (prev : BitVec 7)
    (b : ReportBuffer w) : (tailFilled cap sentinel prev b).slot.length = b.slot.length := by
  unfold tailFilled; split <;> simp

/-- Each slot after step 9: the sentinel from the length up if the report got shorter, as before elsewhere. -/
theorem tailFilled_slot {w cap : Nat} (sentinel : BitVec w) (prev : BitVec 7) {b : ReportBuffer w}
    (hs : b.slot.length = cap) (i : Nat) :
    (tailFilled cap sentinel prev b).slot[i]? =
      if b.len.toNat < prev.toNat ∧ b.len.toNat ≤ i ∧ i < cap then some sentinel else b.slot[i]? := by
  unfold tailFilled
  split
  · rw [ReportBuffer.fill_slot _ _ hs]; simp [*]
  · simp [*]

theorem sentinelFillPrimary_eq (prev : BitVec 7) (s : State) :
    sentinelFillPrimary prev s = s.setRbP (tailFilled s.cfg.capP s.cfg.sentP prev s.rbP) := by
  unfold sentinelFillPrimary tailFilled fillPrimary; split <;> rfl

theorem sentinelFillSecondary_eq (prev : BitVec 7) (s : State) :
    sentinelFillSecondary prev s = s.setRbS (tailFilled s.cfg.capS s.cfg.sentS prev s.rbS) := by
  unfold sentinelFillSecondary tailFilled fillSecondary; split <;> rfl

theorem scannedEntries_left (s : State) :
    scannedEntries (lookupLeft s.cfg (cycleLeft s)) (leftMatrix s)
      (if cycleLeft s = s.layerL then s.maskL else leftMatrix s) (List.range 30) = leftEntries s := by
  unfold scannedEntries leftEntries
  congr 1
  apply List.filter_congr
  intro p _
  by_cases h : cycleLeft s = s.layerL <;> simp [emitsLeft, h]

theorem scannedEntries_right (s : State) :
    scannedEntries (lookupRight s.cfg (cycleRight s)) (rightMatrix s)
      (if cycleRight s = s.layerR then s.maskR else rightMatrix s) (List.range 29) = rightEntries s := by
  unfold scannedEntries rightEntries
  congr 1
  apply List.filter_congr
  intro p _
  by_cases h : cycleRight s = s.layerR <;> simp [emitsRight, h]

theorem maskLeftAfter_eq (s : State) :
    leftMatrix s &&& (if cycleLeft s = s.layerL then s.maskL else leftMatrix s) = maskLeftAfter s := by
  unfold maskLeftAfter; split <;> simp

theorem maskRightAfter_eq (s : State) :
    rightMatrix s &&& (if cycleRight s = s.layerR then s.maskR else rightMatrix s) = maskRightAfter s := by
  unfold maskRightAfter; split <;> simp

/-- One cycle in closed form: the layers are this cycle's, the masks keep what is pressed and blocked, each buffer holds
the pushed codes with its tail filled, and nothing else changes. -/
theorem synCycle_eq (s : State) :
    synCycle s = { s with
      layerL := cycleLeft s, layerR := cycleRight s, maskL := maskLeftAfter s, maskR := maskRightAfter s,
      rbP := tailFilled s.cfg.capP s.cfg.sentP s.rbP.len (pushedP s),
      rbS := tailFilled s.cfg.capS s.cfg.sentS s.rbS.len (pushedS s) } := by
  have hl : leftLayer s.cfg (leftMatrix s) = cycleLeft s := rfl
  have hr : rightLayer s.cfg (cycleLeft s) (rightMatrix s) = cycleRight s := rfl
  have hL := scannedEntries_left s
  have hR := scannedEntries_right s
  have hmL := maskLeftAfter_eq s
  have hmR := maskRightAfter_eq s
  unfold synCycle
  simp only [hl, hr, snapshotLeft_cases, snapshotRight_cases, scanLeft_eq, scanRight_eq, combinations_eq,
    sentinelFillPrimary_eq, sentinelFillSecondary_eq]
  simp only [clearBoth, clearBuffer, withPushes, State.setRbP, State.setRbS, State.setMaskL, State.setMaskR,
    State.setLayerL, State.setLayerR]
  simp only [pushedP, pushedS, cyclePrimary, cycleSecondary, comboCodes, List.filterMap_append,
    ReportBuffer.pushes_append, ReportBuffer.pushes_nil, ← hL, ← hR, ← hmL, ← hmR]
  rfl

end Sys2Proof.Machine
end

