-- ==== Sys2Proof/Laws/Wire.lean ====
section
/-! SUPPORT. Frames in registers (20_memory.md R53) and the four cases of FR.RXB (41_wire_codec.md R116): one equation
per case, and one inversion lemma. -/

namespace Sys2Proof.Machine

/-! ### Packing -/

theorem packFrame_byte (f : Frame) (i : Nat) (h : i < 5) :
    ((packFrame f).setWidth 64 : Data).extractLsb' (8 * i) 8 = f[i] := by
  apply BitVec.eq_of_getLsbD_eq
  intro j hj
  interval_cases i <;>
    simp only [packFrame, BitVec.getLsbD_extractLsb', BitVec.getLsbD_setWidth, BitVec.getLsbD_append, hj] <;> simp
  all_goals (interval_cases j <;> simp)

theorem packFrame_high (f : Frame) (k : Nat) (h : 40 ≤ k) : ((packFrame f).setWidth 64 : Data).getLsbD k = false := by
  simp only [BitVec.getLsbD_setWidth, BitVec.getLsbD_of_ge _ _ h, Bool.and_false]

theorem packFrame_bit (f : Frame) (k : Nat) (h : k < 40) :
    ((packFrame f).setWidth 64 : Data).getLsbD k = (f[k / 8]'(by omega)).getLsbD (k % 8) := by
  have := congrArg (·.getLsbD (k % 8)) (packFrame_byte f (k / 8) (by omega))
  simp only [BitVec.getLsbD_extractLsb', show k % 8 < 8 by omega, decide_true, Bool.true_and,
    show 8 * (k / 8) + k % 8 = k by omega] at this
  exact this

theorem unpackFrame_byte (d : Data) (i : Nat) (h : i < 5) : (unpackFrame d)[i] = d.extractLsb' (8 * i) 8 := by
  interval_cases i <;> rfl

theorem unpackFrame_packFrame (f : Frame) : unpackFrame ((packFrame f).setWidth 64) = f := by
  apply Vector.ext
  intro i hi
  rw [unpackFrame_byte _ _ hi, packFrame_byte _ _ hi]

theorem emittedData_low (v : Payload) : (emittedData v).setWidth 32 = v := by
  apply BitVec.eq_of_getLsbD_eq
  intro j hj
  have h64 : j < 64 := by omega
  simp only [emittedData, BitVec.getLsbD_setWidth, BitVec.getLsbD_append, hj, h64]
  simp

theorem emittedData_toNat (v : Payload) : (emittedData v).toNat = 2 ^ 32 + v.toNat := by
  have hv := v.isLt
  have hor := Nat.two_pow_add_eq_or_of_lt hv 1
  simp only [emittedData, BitVec.toNat_setWidth, BitVec.toNat_append, show (1#1).toNat = 1 from rfl, Nat.shiftLeft_eq,
    Nat.one_mul, Nat.mul_one] at hor ⊢
  rw [← hor, Nat.mod_eq_of_lt]
  omega

theorem setIfInBounds_byte (f : Frame) (k : Nat) (b : Byte) (i : Nat) (h : i < 5) :
    (f.setIfInBounds k b)[i] = if i = k then b else f[i] := by
  rw [Vector.getElem_setIfInBounds]
  simp [eq_comm]

/-! ### The cases of FR.RXB -/

@[simp] theorem frameStart_frFill (b : Byte) (s : State) : (frameStart b s).frFill = 1 := rfl
@[simp] theorem frameStart_frBuf (b : Byte) (s : State) :
    (frameStart b s).frBuf = s.frBuf.setIfInBounds 0 b := rfl
@[simp] theorem frameStart_rxValue (b : Byte) (s : State) : (frameStart b s).rxValue = s.rxValue := rfl
@[simp] theorem frameStart_dout (b : Byte) (s : State) : (frameStart b s).dout = 0 := rfl
@[simp] theorem frameContinue_frFill (b : Byte) (s : State) : (frameContinue b s).frFill = s.frFill + 1 := rfl
@[simp] theorem frameContinue_frBuf (b : Byte) (s : State) :
    (frameContinue b s).frBuf = s.frBuf.setIfInBounds s.frFill.toNat b := rfl
@[simp] theorem frameContinue_rxValue (b : Byte) (s : State) : (frameContinue b s).rxValue = s.rxValue := rfl
@[simp] theorem frameContinue_dout (b : Byte) (s : State) : (frameContinue b s).dout = 0 := rfl
@[simp] theorem frameComplete_frFill (b : Byte) (s : State) : (frameComplete b s).frFill = 0 := rfl
@[simp] theorem frameComplete_frBuf (b : Byte) (s : State) :
    (frameComplete b s).frBuf = s.frBuf.setIfInBounds s.frFill.toNat b := rfl
@[simp] theorem frameComplete_rxValue (b : Byte) (s : State) :
    (frameComplete b s).rxValue = decodeFrame (s.frBuf.setIfInBounds s.frFill.toNat b) := rfl
@[simp] theorem frameComplete_dout (b : Byte) (s : State) :
    (frameComplete b s).dout = emittedData (decodeFrame (s.frBuf.setIfInBounds s.frFill.toNat b)) := rfl

theorem frFill_add_one {v : BitVec 3} (h : v.toNat ≤ 3) : (v + 1).toNat = v.toNat + 1 := by
  rw [BitVec.toNat_add]
  simp
  omega

theorem execFrRxb_start {b : Byte} {s : State} (hb : b.getLsbD 7 = true) :
    execFrRxb b s = .next (frameStart b s) := by
  unfold execFrRxb
  rw [if_pos hb]

theorem execFrRxb_discard {b : Byte} {s : State} (hb : b.getLsbD 7 = false) (h : s.frFill.toNat = 0) :
    execFrRxb b s = .next (s.setDout 0) := by
  unfold execFrRxb
  rw [if_neg (by rw [hb]; decide), if_pos h]

theorem execFrRxb_continue {b : Byte} {s : State} (hb : b.getLsbD 7 = false) (h1 : 1 ≤ s.frFill.toNat)
    (h3 : s.frFill.toNat ≤ 3) : execFrRxb b s = .next (frameContinue b s) := by
  unfold execFrRxb
  rw [if_neg (by rw [hb]; decide), if_neg (by omega), if_pos (by omega)]

theorem execFrRxb_complete {b : Byte} {s : State} (hb : b.getLsbD 7 = false) (h : s.frFill.toNat = 4) :
    execFrRxb b s = .next (frameComplete b s) := by
  unfold execFrRxb
  rw [if_neg (by rw [hb]; decide), if_neg (by omega), if_neg (by omega), if_pos (by omega)]

theorem execFrRxb_absent {b : Byte} {s : State} (hb : b.getLsbD 7 = false) (h : 4 < s.frFill.toNat) :
    execFrRxb b s = .fault .absentElement := by
  unfold execFrRxb
  rw [if_neg (by rw [hb]; decide), if_neg (by omega), if_neg (by omega), if_neg (by omega)]

/-- Everything FR.RXB can answer as a next state. -/
theorem execFrRxb_cases {b : Byte} {s t : State} (h : execFrRxb b s = .next t) :
    (b.getLsbD 7 = true ∧ t = frameStart b s) ∨
    (b.getLsbD 7 = false ∧ s.frFill.toNat = 0 ∧ t = s.setDout 0) ∨
    (b.getLsbD 7 = false ∧ 1 ≤ s.frFill.toNat ∧ s.frFill.toNat ≤ 3 ∧ t = frameContinue b s) ∨
    (b.getLsbD 7 = false ∧ s.frFill.toNat = 4 ∧ t = frameComplete b s) := by
  cases hb : b.getLsbD 7
  · have hf : s.frFill.toNat = 0 ∨ (1 ≤ s.frFill.toNat ∧ s.frFill.toNat ≤ 3) ∨ s.frFill.toNat = 4 ∨
        4 < s.frFill.toNat := by omega
    rcases hf with h0 | ⟨h1, h3⟩ | h4 | h5
    · rw [execFrRxb_discard hb h0] at h; cases h; simp [h0]
    · rw [execFrRxb_continue hb h1 h3] at h; cases h; simp [h1, h3]
    · rw [execFrRxb_complete hb h4] at h; cases h; simp [h4]
    · rw [execFrRxb_absent hb h5] at h; cases h
  · rw [execFrRxb_start hb] at h; cases h; simp

end Sys2Proof.Machine
end

