-- ==== Sys2Proof/Laws/Exec.lean ====
section
/-! SUPPORT. Inversion of the step and of the meanings that can answer in more than one way: each says once everything
that can happen, guards included, and later proofs cite it instead of unfolding. -/

namespace Sys2Proof.Machine

/-- An error sets its bit of ERR and nothing else (R181, R182). -/
theorem raise_ill (s : State) : SetsOnlyErrBit 0 s (raise .ill s) := by
  refine ⟨fun k hk => ?_, rfl⟩
  simp only [raise, State.setErr, setErrFlag, errBit, BitVec.getLsbD_or]
  interval_cases k <;> simp

theorem raise_idx (s : State) : SetsOnlyErrBit 1 s (raise .idx s) := by
  refine ⟨fun k hk => ?_, rfl⟩
  simp only [raise, State.setErr, setErrFlag, errBit, BitVec.getLsbD_or]
  interval_cases k <;> simp

/-- Everything BW.GET can answer. -/
theorem execBwGet_cases {idx : BitVec 6} {s t : State} (h : execBwGet idx s = .next t) :
    (s.cfg.bwW ≤ idx.toNat ∧ t = raise .idx s) ∨
    (idx.toNat < s.cfg.bwW ∧ t = s.setDout (boolData ((bwValue s).getLsbD idx.toNat))) := by
  unfold execBwGet at h
  split at h <;> cases h
  · exact .inl ⟨‹_›, rfl⟩
  · exact .inr ⟨by omega, rfl⟩

/-- Everything BW.SET can answer. -/
theorem execBwSet_cases {idx : BitVec 6} {val : Bool} {s t : State} (h : execBwSet idx val s = .next t) :
    (s.cfg.bwW ≤ idx.toNat ∧ t = raise .idx s) ∨
    (idx.toNat < s.cfg.bwW ∧ t = s.setBw (withBit (bwValue s) idx.toNat val)) := by
  unfold execBwSet at h
  split at h <;> cases h
  · exact .inl ⟨‹_›, rfl⟩
  · exact .inr ⟨by omega, rfl⟩

/-- Everything RB.READ can answer as a next state. -/
theorem execRbRead_cases {sel : Sel} {ix : BitVec 7} {s t : State} (h : execRbRead sel ix s = .next t) :
    (capOf s.cfg sel ≤ ix.toNat ∧ t = raise .idx s) ∨
    (ix.toNat < capOf s.cfg sel ∧ ∃ v, slotData s sel ix.toNat = some v ∧ t = s.setDout v) := by
  unfold execRbRead at h
  split at h
  · cases h; exact .inl ⟨‹_›, rfl⟩
  · split at h <;> cases h
    exact .inr ⟨by omega, _, ‹_›, rfl⟩

/-- SYN.CYCLE answers a next state exactly when the configuration allows it. -/
theorem execSynCycle_cases {s t : State} (h : execSynCycle s = .next t) :
    cycleAllowed s.cfg = true ∧ t = synCycle s := by
  unfold execSynCycle at h
  split at h <;> cases h
  exact ⟨‹_›, rfl⟩

theorem execSynCycle_of_allowed {s : State} (h : cycleAllowed s.cfg = true) : execSynCycle s = .next (synCycle s) :=
  if_pos h

/-- R10's bounds that the buffer lemmas need. -/
theorem caps_of_valid {c : Config} (h : configValid c = true) : c.capP ≤ 127 ∧ c.capS ≤ 127 := by
  simp [configValid, capsValid] at h
  omega

theorem cycleAllowed_iff (c : Config) : cycleAllowed c = true ↔ configValid c = true ∧ 29 ≤ c.bwW := by
  simp [cycleAllowed]

/-- Everything a step can do when it answers a next state. -/
theorem step_cases {s t : State} (h : step s = .next t) : configValid s.cfg = true ∧
    ((s.host = [] ∧ t = s) ∨
     (∃ v rest, s.host = .writeDin v :: rest ∧ t = { s with host := rest, din := v }) ∨
     (∃ w rest, s.host = .command w :: rest ∧
       ((∃ e, decode w = .error e ∧ t = raise .ill { s with host := rest }) ∨
        ∃ i, decode w = .ok i ∧ exec i { s with host := rest } = .next t))) := by
  unfold step at h
  split at h
  · refine ⟨‹_›, ?_⟩
    unfold takeAction at h
    cases hh : s.host with
    | nil => rw [hh] at h; cases h; exact .inl ⟨rfl, rfl⟩
    | cons a rest =>
      rw [hh] at h
      cases a with
      | writeDin v => cases h; exact .inr (.inl ⟨v, rest, rfl, rfl⟩)
      | command w =>
        refine .inr (.inr ⟨w, rest, rfl, ?_⟩)
        simp only [issue] at h
        cases hd : decode w with
        | error e => rw [hd] at h; cases h; exact .inl ⟨e, rfl, rfl⟩
        | ok i => rw [hd] at h; exact .inr ⟨i, rfl, h⟩
  · cases h

end Sys2Proof.Machine
end

