-- ==== Sys2Proof/Laws/Guards.lean ====
section
/-! SUPPORT. Guards are complete: every total Boolean function of (ll, rl, Lm, Rm, MASK_L, MASK_R), which is what R150
allows as a guard, is the meaning of some `Guard`. So holding COMBOS as plain data shuts out no combination rule. -/

namespace Sys2Proof.Machine

/-- The guards of a list hold together. -/
def guardAll (l : List Guard) : Guard := l.foldr .both .always

/-- Some guard of a list holds. -/
def guardAny (l : List Guard) : Guard := l.foldr .either (.neg .always)

theorem guardAll_holds (l : List Guard) (v : CycleView) : guardHolds (guardAll l) v = l.all (guardHolds · v) := by
  induction l with
  | nil => rfl
  | cons g l ih => simp only [List.all_cons, ← ih]; rfl

theorem guardAny_holds (l : List Guard) (v : CycleView) : guardHolds (guardAny l) v = l.any (guardHolds · v) := by
  induction l with
  | nil => rfl
  | cons g l ih => simp only [List.any_cons, ← ih]; rfl

/-- The guards that fix each of `n` bits to the bits of `m`. -/
def bitGuards {n : Nat} (atom : Nat → Guard) (m : BitVec n) : List Guard :=
  (List.range n).map fun p => if m.getLsbD p then atom p else .neg (atom p)

theorem bitGuards_hold {n : Nat} (atom : Nat → Guard) (m w : BitVec n) (v : CycleView)
    (h : ∀ p, guardHolds (atom p) v = w.getLsbD p) :
    (bitGuards atom m).all (guardHolds · v) = true ↔ w = m := by
  simp only [bitGuards, List.all_map, List.all_eq_true, List.mem_range, Function.comp]
  constructor
  · intro hall
    apply BitVec.eq_of_getLsbD_eq
    intro p hp
    have hg := hall p hp
    rw [← h p]
    by_cases hm : m.getLsbD p = true
    · rw [if_pos hm] at hg; rw [hg, hm]
    · rw [if_neg hm] at hg
      simp only [guardHolds, Bool.not_eq_true'] at hg
      rw [hg, Bool.eq_false_iff.mpr hm]
  · rintro rfl p _
    by_cases hm : w.getLsbD p = true
    · rw [if_pos hm, h p, hm]
    · rw [if_neg hm]
      simp only [guardHolds, h p, Bool.not_eq_true']
      exact Bool.eq_false_iff.mpr hm

/-- The guard that holds at exactly one view. -/
def viewGuard (u : CycleView) : Guard :=
  guardAll ([.leftLayerIs u.ll, .rightLayerIs u.rl] ++ bitGuards .leftPressed u.left ++
    bitGuards .rightPressed u.right ++ bitGuards .leftBlocked u.maskL ++ bitGuards .rightBlocked u.maskR)

theorem viewGuard_holds (u v : CycleView) : guardHolds (viewGuard u) v = true ↔ v = u := by
  rw [viewGuard, guardAll_holds]
  simp only [List.all_append, Bool.and_eq_true, bitGuards_hold .leftPressed u.left v.left v (fun _ => rfl),
    bitGuards_hold .rightPressed u.right v.right v (fun _ => rfl),
    bitGuards_hold .leftBlocked u.maskL v.maskL v (fun _ => rfl),
    bitGuards_hold .rightBlocked u.maskR v.maskR v (fun _ => rfl)]
  cases u; cases v
  simp [guardHolds, and_assoc]

theorem views_finite : Finite CycleView :=
  Finite.of_injective
    (fun v => (v.ll.toFin, v.rl.toFin, v.left.toFin, v.right.toFin, v.maskL.toFin, v.maskR.toFin)) (by
      rintro ⟨⟩ ⟨⟩ h
      simp only [Prod.mk.injEq, BitVec.toFin_inj] at h
      simpa using h)

/-- Every Boolean function of a cycle's view is the meaning of some guard (R150). -/
theorem guard_complete (f : CycleView → Bool) : ∃ g : Guard, ∀ v, guardHolds g v = f v := by
  have := views_finite
  obtain ⟨l, -, hl⟩ := Finite.exists_univ_list CycleView
  refine ⟨guardAny ((l.filter f).map viewGuard), fun v => ?_⟩
  rw [guardAny_holds, Bool.eq_iff_iff, List.any_map, List.any_eq_true]
  constructor
  · rintro ⟨u, hu, hv⟩
    rw [(viewGuard_holds u v).mp hv]
    exact (List.mem_filter.mp hu).2
  · exact fun hv => ⟨v, List.mem_filter.mpr ⟨hl v, hv⟩, (viewGuard_holds v v).mpr rfl⟩

end Sys2Proof.Machine
end

