-- ==== Sys2Proof/Laws/Masks.lean ====
section
/-! SUPPORT. What a row of R79 matches, said in fields: matching a mask is agreeing on the bit ranges that the mask
covers, and a word is illegal when no row matches it (30_encoding.md R72 to R82). -/

namespace Sys2Proof

/-- Matching a mask that covers exactly the ranges (position, width) of the list is agreeing on each of them. -/
theorem mask_iff (m p : CmdWord) (ranges : List (Nat × Nat))
    (hc : ∀ j, j < 32 → m.getLsbD j = ranges.any fun r => decide (r.1 ≤ j) && decide (j < r.1 + r.2))
    (hp : p &&& m = p) (hr : ∀ r ∈ ranges, r.1 + r.2 ≤ 32) (w : CmdWord) :
    w &&& m = p ↔ ∀ r ∈ ranges, w.extractLsb' r.1 r.2 = p.extractLsb' r.1 r.2 := by
  constructor
  · intro h r hrm
    apply BitVec.eq_of_getLsbD_eq
    intro j hj
    have hb : m.getLsbD (r.1 + j) = true := by
      rw [hc _ (by have := hr r hrm; omega), List.any_eq_true]
      exact ⟨r, hrm, by simp [hj]⟩
    simp only [BitVec.getLsbD_extractLsb', hj, decide_true, Bool.true_and]
    rw [← h]
    simp [hb]
  · intro h
    rw [← hp]
    apply BitVec.eq_of_getLsbD_eq
    intro j hj
    simp only [BitVec.getLsbD_and]
    cases hm : m.getLsbD j
    · simp
    · rw [hc j hj, List.any_eq_true] at hm
      obtain ⟨r, hrm, hb⟩ := hm
      simp at hb
      have := congrArg (·.getLsbD (j - r.1)) (h r hrm)
      simp only [BitVec.getLsbD_extractLsb'] at this
      rw [show r.1 + (j - r.1) = j by omega] at this
      have h3 : j - r.1 < r.2 := by omega
      simpa [h3] using this

theorem unitField_eq_iff (w p : CmdWord) : unitField w = unitField p ↔ w.extractLsb' 28 4 = p.extractLsb' 28 4 :=
  BitVec.toNat_inj

theorem opField_eq_iff (w p : CmdWord) : opField w = opField p ↔ w.extractLsb' 24 4 = p.extractLsb' 24 4 :=
  BitVec.toNat_inj

/-- A row whose mask covers UNIT, OP and one range of reserved bits: unit and operation are the row's and the reserved
bits are 0. -/
theorem reserved_range_iff (m p : CmdWord) (a n : Nat)
    (hc : ∀ j, j < 32 →
      m.getLsbD j = [(28, 4), (24, 4), (a, n)].any fun r => decide (r.1 ≤ j) && decide (j < r.1 + r.2))
    (h2 : p &&& m = p) (hn : a + n ≤ 32) (hp : p.extractLsb' a n = 0) (w : CmdWord) :
    w &&& m = p ↔ unitField w = unitField p ∧ opField w = opField p ∧ w.extractLsb' a n = 0 := by
  rw [mask_iff _ p [(28, 4), (24, 4), (a, n)] hc h2 (by simpa using hn), unitField_eq_iff, opField_eq_iff, ← hp]
  simp only [List.forall_mem_cons, List.not_mem_nil, false_imp_iff, implies_true, and_true]

/-- A word is illegal exactly when no row of R79 matches it (R82). -/
theorem decode_error_iff (w : CmdWord) :
    (∃ e, decode w = .error e) ↔ ∀ r ∈ opcodeTable, r.hits w = false := by
  unfold decode
  cases hf : opcodeTable.find? (·.hits w) with
  | none => simpa using hf
  | some q =>
    have hq : q.hits w = true := (List.find?_some hf :)
    simp only [reduceCtorEq, exists_false, false_iff, not_forall]
    exact ⟨q, List.mem_of_find?_eq_some hf, by simp [hq]⟩

end Sys2Proof
end

