-- ==== Sys2Proof/Laws/PerInstr.lean ====
section
/-! SUPPORT. The family RowHit, made per command: the word of a well-formed command hits the row of R79 that has the
command's mnemonic, and that row reads the command back. With it, and the lemmas on fields of a word before it. -/

namespace Sys2Proof

/-! ### Fields of an assembled word -/

/-- An operand field of `n` bits at position `k` has no bit under a mask that is clear there. -/
theorem field_and_mask {n : Nat} (v : BitVec n) (k : Nat) (m : CmdWord) (h : ∀ j, j < n → m.getLsbD (k + j) = false) :
    (v.setWidth 32 <<< k : CmdWord) &&& m = 0#32 := by
  apply BitVec.eq_of_getLsbD_eq
  intro j hj
  simp only [BitVec.getLsbD_and, BitVec.getLsbD_shiftLeft, BitVec.getLsbD_setWidth, BitVec.getLsbD_zero]
  by_cases h1 : j < k
  · simp [h1]
  · by_cases h2 : j - k < n
    · have := h (j - k) h2
      rw [show k + (j - k) = j by omega] at this
      simp [this]
    · simp [BitVec.getLsbD_of_ge v (j - k) (by omega)]

/-- The same for a field at position 0. -/
theorem field_and_mask_zero {n : Nat} (v : BitVec n) (m : CmdWord) (h : ∀ j, j < n → m.getLsbD j = false) :
    (v.setWidth 32 : CmdWord) &&& m = 0#32 := by
  have := field_and_mask v 0 m (by simpa using h)
  simpa using this

/-- Reading back a field of `n` bits at position `k`. -/
theorem extract_field {n : Nat} (v : BitVec n) (k : Nat) (h : k + n ≤ 32) :
    (v.setWidth 32 <<< k : CmdWord).extractLsb' k n = v := by
  apply BitVec.eq_of_getLsbD_eq
  intro j hj
  have : k + j < 32 := by omega
  simp [hj, this]

theorem extract_field_zero {n : Nat} (v : BitVec n) (h : n ≤ 32) :
    (v.setWidth 32 : CmdWord).extractLsb' 0 n = v := by
  have := extract_field v 0 (by omega)
  simpa using this

/-- A field of `n` bits at position `k` has no bit in a range that does not meet it. -/
theorem extract_other {n : Nat} (v : BitVec n) (k a len : Nat) (h : a + len ≤ k ∨ k + n ≤ a) :
    (v.setWidth 32 <<< k : CmdWord).extractLsb' a len = 0 := by
  apply BitVec.eq_of_getLsbD_eq
  intro j hj
  simp only [BitVec.getLsbD_extractLsb', BitVec.getLsbD_shiftLeft, BitVec.getLsbD_setWidth]
  rcases h with h | h
  · have : a + j < k := by omega
    simp [this]
  · simp [BitVec.getLsbD_of_ge v (a + j - k) (by omega)]

theorem extract_other_zero {n : Nat} (v : BitVec n) (a len : Nat) (h : n ≤ a) :
    (v.setWidth 32 : CmdWord).extractLsb' a len = 0 := by
  have := extract_other v 0 a len (Or.inr (by omega))
  simpa using this

theorem or_and_mask (x y m : CmdWord) : (x ||| y) &&& m = x &&& m ||| y &&& m := by
  apply BitVec.eq_of_getLsbD_eq
  intro j _
  simp [Bool.and_or_distrib_right]

theorem extract_or (x y : CmdWord) (a len : Nat) :
    (x ||| y).extractLsb' a len = x.extractLsb' a len ||| y.extractLsb' a len := by
  apply BitVec.eq_of_getLsbD_eq
  intro j hj
  simp [hj]

/-- Bit `b` of a field of `n` bits at position `k`. -/
theorem bit_of_field {n : Nat} (v : BitVec n) (k b : Nat) :
    (v.setWidth 32 <<< k : CmdWord).getLsbD b = (decide (b < 32) && decide (k ≤ b) && v.getLsbD (b - k)) := by
  simp only [BitVec.getLsbD_shiftLeft, BitVec.getLsbD_setWidth]
  by_cases h1 : b < 32 <;> by_cases h2 : k ≤ b
  · have : b - k < 32 := by omega
    simp [h1, h2, Nat.not_lt.mpr h2, this]
  · simp [h1, h2, Nat.lt_of_not_le h2]
  · simp [h1]
  · simp [h1]

theorem bit_of_field_zero {n : Nat} (v : BitVec n) (b : Nat) :
    (v.setWidth 32 : CmdWord).getLsbD b = (decide (b < 32) && v.getLsbD b) := by
  simp

/-- The unit and operation byte of a word that hits a row is the row's (R82: "rows differ in UNIT or OP"). -/
theorem top_byte_of_hits {r : Row} (hr : r ∈ opcodeTable) {w : CmdWord} (h : r.hits w = true) :
    w.extractLsb' 24 8 = r.pattern.extractLsb' 24 8 := by
  have hm : ∀ r ∈ opcodeTable, r.mask.extractLsb' 24 8 = 0xFF#8 := by
    simp only [opcodeTable, bwRows, wireRows, rbRows, synRows]
    decide
  have hw : w &&& r.mask = r.pattern := by
    have := (Bool.and_eq_true _ _).mp h
    simpa using this.1
  rw [← hw]
  apply BitVec.eq_of_getLsbD_eq
  intro j hj
  have hb := congrArg (·.getLsbD j) (hm r hr)
  have hff : (0xFF#8).getLsbD j = true := by
    have : ∀ j, j < 8 → (0xFF#8).getLsbD j = true := by decide
    exact this j hj
  simp only [BitVec.getLsbD_extractLsb', hff] at hb
  simp only [BitVec.getLsbD_extractLsb', BitVec.getLsbD_and]
  simp only [Bool.and_eq_true] at hb
  simp [hb.2]

end Sys2Proof

namespace Sys2Proof.Laws.RowHit

open Sys2Proof

/-- The mnemonic of a command, as R79's table spells it. -/
def mnemonicOf : Instr → String
  | .bwNew => "BW.NEW"
  | .bwGet _ => "BW.GET"
  | .bwSet _ _ => "BW.SET"
  | .bwGetraw => "BW.GETRAW"
  | .bwSetraw => "BW.SETRAW"
  | .bwClear => "BW.CLEAR"
  | .bwLdrx => "BW.LDRX"
  | .cdEnc => "CD.ENC"
  | .cdDec => "CD.DEC"
  | .frRxb _ => "FR.RXB"
  | .frRdval => "FR.RDVAL"
  | .frStat => "FR.STAT"
  | .rbClear _ => "RB.CLEAR"
  | .rbPush _ _ => "RB.PUSH"
  | .rbFill _ _ _ => "RB.FILL"
  | .rbLen _ => "RB.LEN"
  | .rbRead _ _ => "RB.READ"
  | .synCycle => "SYN.CYCLE"
  | .synRead _ => "SYN.READ"
  | .statRead => "STAT.READ"

/-- The word of `i` hits a row of its own mnemonic, which reads `i` back. -/
def Statement (i : Instr) : Prop :=
  i.wellFormed = true →
    ∃ r ∈ opcodeTable, r.mnemonic = mnemonicOf i ∧ r.hits (encode i) = true ∧ r.read (encode i) = i

/-- The table's row at a position, as a witness for `Statement`. -/
theorem of_row {i : Instr} (n : Nat) (hn : n < opcodeTable.length) (hm : opcodeTable[n].mnemonic = mnemonicOf i)
    (hh : i.wellFormed = true → opcodeTable[n].hits (encode i) = true)
    (hr : opcodeTable[n].read (encode i) = i) : Statement i :=
  fun hw => ⟨opcodeTable[n], List.getElem_mem hn, hm, hh hw, hr⟩

theorem bwNew : Statement .bwNew := of_row 0 (by decide) rfl (fun _ => rfl) rfl
theorem bwGetraw : Statement .bwGetraw := of_row 3 (by decide) rfl (fun _ => rfl) rfl
theorem bwSetraw : Statement .bwSetraw := of_row 4 (by decide) rfl (fun _ => rfl) rfl
theorem bwClear : Statement .bwClear := of_row 5 (by decide) rfl (fun _ => rfl) rfl
theorem bwLdrx : Statement .bwLdrx := of_row 6 (by decide) rfl (fun _ => rfl) rfl
theorem cdEnc : Statement .cdEnc := of_row 7 (by decide) rfl (fun _ => rfl) rfl
theorem cdDec : Statement .cdDec := of_row 8 (by decide) rfl (fun _ => rfl) rfl
theorem frRdval : Statement .frRdval := of_row 10 (by decide) rfl (fun _ => rfl) rfl
theorem frStat : Statement .frStat := of_row 11 (by decide) rfl (fun _ => rfl) rfl
theorem synCycle : Statement .synCycle := of_row 17 (by decide) rfl (fun _ => rfl) rfl
theorem statRead : Statement .statRead := of_row 19 (by decide) rfl (fun _ => rfl) rfl

theorem bwGet (idx : BitVec 6) : Statement (.bwGet idx) := by
  refine of_row 1 (by decide) rfl (fun _ => ?_) ?_ <;> revert idx <;> decide

theorem bwSet (idx : BitVec 6) (val : Bool) : Statement (.bwSet idx val) := by
  refine of_row 2 (by decide) rfl (fun _ => ?_) ?_ <;> revert idx <;> cases val <;> decide

theorem frRxb (byte : Byte) : Statement (.frRxb byte) := by
  refine of_row 9 (by decide) rfl (fun _ => ?_) ?_ <;> revert byte <;> decide

theorem rbClear (sel : Sel) : Statement (.rbClear sel) := by
  cases sel <;> exact of_row 12 (by decide) rfl (fun _ => rfl) rfl

theorem rbLen (sel : Sel) : Statement (.rbLen sel) := by
  cases sel <;> exact of_row 15 (by decide) rfl (fun _ => rfl) rfl

theorem rbRead (sel : Sel) (ix : BitVec 7) : Statement (.rbRead sel ix) := by
  refine of_row 16 (by decide) rfl (fun _ => ?_) ?_ <;> revert ix <;> cases sel <;> decide

theorem synRead (which : Which) : Statement (.synRead which) := by
  cases which <;> exact of_row 18 (by decide) rfl (fun _ => rfl) rfl

/-- The extra condition on a word whose CODE field is `code` and whose SEL bit is `sel`. -/
theorem codeCondition_of_fits (sel : Sel) (code : BitVec 16) (w : CmdWord) (hf : codeFits sel code = true)
    (hs : w.getLsbD 23 = decide (sel = .secondary)) (hc : w.extractLsb' 8 8 = code.extractLsb' 8 8) :
    codeCondition w = true := by
  unfold codeCondition
  rw [hs, hc]
  cases sel
  · exact hf
  · rfl

theorem extract_high_code (code : BitVec 16) :
    (code.setWidth 32 : CmdWord).extractLsb' 8 8 = code.extractLsb' 8 8 := by
  apply BitVec.eq_of_getLsbD_eq
  intro j hj
  have : 8 + j < 32 := by omega
  simp [hj, this]

theorem selField_or (sel : Sel) (w : CmdWord) (hw : w.getLsbD 23 = decide (sel = .secondary)) : selField w = sel := by
  cases sel <;> simp_all [selField]

theorem rbPush (sel : Sel) (code : BitVec 16) : Statement (.rbPush sel code) := by
  have hsel : (encode (.rbPush sel code)).getLsbD 23 = decide (sel = .secondary) := by
    simp only [encode, BitVec.getLsbD_or, bit_of_field_zero, BitVec.getLsbD_of_ge code 23 (by omega)]
    cases sel <;> rfl
  have hcode : codeField (encode (.rbPush sel code)) = code := by
    simp only [codeField, encode, extract_or, extract_field_zero code (by omega)]
    cases sel <;> exact BitVec.zero_or
  refine of_row 13 (by decide) rfl (fun hw => ?_) ?_
  · refine (Bool.and_eq_true _ _).mpr ⟨?_, codeCondition_of_fits sel code _ hw hsel ?_⟩
    · refine beq_iff_eq.mpr ?_
      change (0x31000000 ||| selBits sel ||| code.setWidth 32 : CmdWord) &&& 0xFF7F0000 = 0x31000000
      rw [or_and_mask, field_and_mask_zero code _ (by decide)]
      cases sel <;> rfl
    · simp only [encode, extract_or, extract_high_code]
      cases sel <;> exact BitVec.zero_or
  · change Instr.rbPush (selField _) (codeField _) = _
    rw [selField_or sel _ hsel, hcode]

theorem rbFill (sel : Sel) (ix : BitVec 7) (code : BitVec 16) : Statement (.rbFill sel ix code) := by
  have hsel : (encode (.rbFill sel ix code)).getLsbD 23 = decide (sel = .secondary) := by
    simp only [encode, BitVec.getLsbD_or, bit_of_field_zero, bit_of_field, BitVec.getLsbD_of_ge code 23 (by omega),
      BitVec.getLsbD_of_ge ix (23 - 16) (by omega)]
    cases sel <;> rfl
  have hcode : codeField (encode (.rbFill sel ix code)) = code := by
    simp only [codeField, encode, extract_or, extract_field_zero code (by omega),
      extract_other ix 16 0 16 (by omega)]
    cases sel <;> exact BitVec.zero_or
  have hix : ixField (encode (.rbFill sel ix code)) = ix := by
    simp only [ixField, encode, extract_or, extract_field ix 16 (by omega), extract_other_zero code 16 7 (by omega)]
    cases sel <;> exact BitVec.or_zero.trans BitVec.zero_or
  refine of_row 14 (by decide) rfl (fun hw => ?_) ?_
  · refine (Bool.and_eq_true _ _).mpr ⟨?_, codeCondition_of_fits sel code _ hw hsel ?_⟩
    · refine beq_iff_eq.mpr ?_
      change (0x32000000 ||| selBits sel ||| ix.setWidth 32 <<< 16 ||| code.setWidth 32 : CmdWord) &&& 0xFF000000 =
        0x32000000
      rw [or_and_mask, or_and_mask, field_and_mask_zero code _ (by decide),
        field_and_mask ix 16 _ (by decide)]
      cases sel <;> rfl
    · simp only [encode, extract_or, extract_high_code, extract_other ix 16 8 8 (by omega)]
      cases sel <;> exact BitVec.zero_or
  · change Instr.rbFill (selField _) (ixField _) (codeField _) = _
    rw [selField_or sel _ hsel, hcode, hix]

end Sys2Proof.Laws.RowHit
end

