-- ==== Sys2Proof/Tests/Slice0.lean ====
section
/-! SUPPORT. Tests. The words are written out from the encodings of 30_encoding.md R72 to R79; the expected results are
the vectors of 95_test_vectors.md, named in each docstring, or its worked examples. The last part gives, for each
statement with hypotheses, states and operands that meet them, at the ends of their ranges. -/

namespace Sys2Proof.Tests

open Sys2Proof Sys2Proof.Machine

/-! ### Well-formedness -/

/-- R76, R81: a primary code has 8 bits. -/
theorem test_wellFormed_push_refuses_wide_primary_code : (Instr.rbPush .primary 0x0100).wellFormed = false := by decide
theorem test_wellFormed_fill_refuses_wide_primary_code :
    (Instr.rbFill .primary 0x3A 0xFF00).wellFormed = false := by decide
theorem test_wellFormed_push_takes_widest_codes :
    (Instr.rbPush .primary 0x00FF).wellFormed = true ∧ (Instr.rbPush .secondary 0xFFFF).wellFormed = true := by decide
theorem test_wellFormed_fill_takes_widest_codes :
    (Instr.rbFill .primary 127 0x00FF).wellFormed = true ∧
      (Instr.rbFill .secondary 0 0xFFFF).wellFormed = true := by decide

/-! ### Decoding, one word per command -/

theorem test_decode_bwNew : decode 0b00000000000000000000000000000000#32 = .ok .bwNew := by decide
theorem test_decode_bwGet : decode 0b00000001000000000000000000100011#32 = .ok (.bwGet 35) := by decide
theorem test_decode_bwSet : decode 0b00000010000000000000000001100011#32 = .ok (.bwSet 35 true) := by decide
theorem test_decode_bwGetraw : decode 0b00000011000000000000000000000000#32 = .ok .bwGetraw := by decide
theorem test_decode_bwSetraw : decode 0b00000100000000000000000000000000#32 = .ok .bwSetraw := by decide
theorem test_decode_bwClear : decode 0b00000101000000000000000000000000#32 = .ok .bwClear := by decide
theorem test_decode_bwLdrx : decode 0b00000110000000000000000000000000#32 = .ok .bwLdrx := by decide
theorem test_decode_cdEnc : decode 0b00010000000000000000000000000000#32 = .ok .cdEnc := by decide
theorem test_decode_cdDec : decode 0b00010001000000000000000000000000#32 = .ok .cdDec := by decide
theorem test_decode_frRxb : decode 0b00100000000000000000000010010001#32 = .ok (.frRxb 0x91) := by decide
theorem test_decode_frRdval : decode 0b00100001000000000000000000000000#32 = .ok .frRdval := by decide
theorem test_decode_frStat : decode 0b00100010000000000000000000000000#32 = .ok .frStat := by decide
theorem test_decode_rbClear : decode 0b00110000100000000000000000000000#32 = .ok (.rbClear .secondary) := by decide
theorem test_decode_rbPush :
    decode 0b00110001100000001010000000000011#32 = .ok (.rbPush .secondary 0xA003) := by decide
theorem test_decode_rbFill :
    decode 0b00110010010000100000000010000001#32 = .ok (.rbFill .primary 66 0x81) := by decide
theorem test_decode_rbLen : decode 0b00110011100000000000000000000000#32 = .ok (.rbLen .secondary) := by decide
theorem test_decode_rbRead : decode 0b00110100010000010000000000000000#32 = .ok (.rbRead .primary 65) := by decide
theorem test_decode_synCycle : decode 0b01000000000000000000000000000000#32 = .ok .synCycle := by decide
theorem test_decode_synRead : decode 0b01000001000000000000000000000001#32 = .ok (.synRead .layerR) := by decide
theorem test_decode_statRead : decode 0b11110000000000000000000000000000#32 = .ok .statRead := by decide

/-- R80: each cause of an illegal word (vectors ST-03, BW-19, BW-17, RB-13). -/
theorem test_decode_illegal :
    decode 0x50000000 = .error .reservedUnit ∧ decode 0x07000000 = .error .unassignedOp ∧
      decode 0x01000040 = .error .reservedBit ∧ decode 0x31000100 = .error .wideCode := by decide

/-- Every row of R79 is hit by its own match. -/
theorem test_every_row_hits : opcodeTable.all (fun r => r.hits r.pattern) = true := by decide

/-- R84's example lines: BW.SET 4, 1 is 0x02000044 and RB.FILL P, 0, 1 is 0x32010000. -/
theorem test_encode_examples :
    encode (.bwSet 4 true) = 0x02000044 ∧ encode (.rbFill .primary 1 0) = 0x32010000 ∧
      assembly (.bwSet 4 true) = "BW.SET 4, 1" := by decide

/-- A word above CMD's 32 bits is none; the bits above the table's are 0. -/
theorem test_decodeTableWord :
    decodeTableWord 32 0x40000000 = some .synCycle ∧ decodeTableWord 40 0x140000000 = none ∧
      decodeTableWord 32 0x140000000 = some .synCycle ∧ decodeTableWord 32 0xFFFFFFFF = none := by decide

/-! ### One step -/

/-- The step that performs the word `w` in `s`. -/
def issued (w : CmdWord) (s : State) : Result := step { s with host := [.command w] }

/-- The result is a next state of which `p` is true. -/
def goesTo (r : Result) (p : State → Bool) : Bool :=
  match r with
  | .next t => p t
  | .fault _ => false
  | .refused _ => false

/-- The state after reset, BW and ERR set. -/
def withBw (v : Data) : State := { State.reset with bw := v }

/-- The state after reset, DIN set. -/
def withDin (v : Data) : State := { State.reset with din := v }

/-- BW-01. -/
theorem test_bwNew : goesTo (issued 0x00000000 (withDin 0xDEADBEEF)) (fun t => t.bw == 0xDEADBEEF && t.dout == 0) := by
  decide
/-- BW-02. -/
theorem test_bwGet : goesTo (issued 0x01000000 (withBw 0xDEADBEEF)) (fun t => t.dout == 1) := by decide
/-- BW-05. -/
theorem test_bwGet_top : goesTo (issued 0x01000020 (withBw 0xDEADBEEF))
    (fun t => t.dout == 0 && t.err == 2 && t.bw == 0xDEADBEEF) := by decide
/-- BW-06. -/
theorem test_bwSet : goesTo (issued 0x02000044 (withBw 0xDEADBEEF)) (fun t => t.bw == 0xDEADBEFF) := by decide
/-- BW-07. -/
theorem test_bwSet_zero : goesTo (issued 0x0200001F (withBw 0xDEADBEFF)) (fun t => t.bw == 0x5EADBEFF) := by decide
/-- BW-09. -/
theorem test_bwGetraw : goesTo (issued 0x03000000 (withBw 0x5EADBEFF)) (fun t => t.dout == 0x5EADBEFF) := by decide
/-- BW-11. -/
theorem test_bwSetraw : goesTo (issued 0x04000000 (withDin 0x123456789)) (fun t => t.bw == 0x23456789) := by decide
/-- BW-10. -/
theorem test_bwClear : goesTo (issued 0x05000000 (withBw 0x5EADBEFF)) (fun t => t.bw == 0) := by decide

/-- A configuration of width W. -/
def wide (w : Nat) : Config := { Config.tc with bwW := w }

/-- BW-13 and BW-12. -/
theorem test_bwLdrx :
    goesTo (issued 0x06000000 { State.resetWith (wide 8) with rxValue := 0x1FF }) (fun t => t.bw == 0xFF) ∧
      goesTo (issued 0x06000000 { State.reset with rxValue := 0x12345678 }) (fun t => t.bw == 0x12345678) := by decide

/-- CD-12 and CD-13. -/
theorem test_cdEnc : goesTo (issued 0x10000000 (withDin 0xDEADBEEF)) (fun t => t.dout == 0xD75367DEF) ∧
    goesTo (issued 0x10000000 (withDin 0xFFFFFFFF12345678)) (fun t => t.dout == 0x111512CF8) := by decide
/-- CD-27 and CD-23. -/
theorem test_cdDec : goesTo (issued 0x11000000 (withDin 0x111512CF8)) (fun t => t.dout == 0x12345678) ∧
    goesTo (issued 0x11000000 (withDin 0x7F00000080)) (fun t => t.dout == 0xF0000000) := by decide

/-- The framer with `n` bytes of a frame in it. -/
def framing (buf : Frame) (n : BitVec 3) : State := { State.reset with frBuf := buf, frFill := n }

/-- FR-04, the fifth byte. -/
theorem test_frRxb_completes : goesTo (issued 0x20000001 (framing #v[0xF8, 0x2C, 0x51, 0x11, 0x00] 4))
    (fun t => t.frFill == 0 && t.rxValue == 0x12345678 && t.dout == 0x112345678) := by decide
/-- FR-05, a start byte in a frame. -/
theorem test_frRxb_restarts : goesTo (issued 0x200000AA (framing #v[0xF8, 0x2C, 0x51, 0, 0] 3))
    (fun t => t.frFill == 1 && t.frBuf == #v[0xAA, 0x2C, 0x51, 0, 0] && t.dout == 0) := by decide
/-- FR-10. -/
theorem test_frRdval : goesTo (issued 0x21000000 { State.reset with rxValue := 0xFFFFFFFF })
    (fun t => t.dout == 0xFFFFFFFF) := by decide
/-- FR-02 and FR-04. -/
theorem test_frStat : goesTo (issued 0x22000000 (framing #v[0x85, 0, 0, 0, 0] 1)) (fun t => t.dout == 0x8501) ∧
    goesTo (issued 0x22000000 (framing #v[0xF8, 0x2C, 0x51, 0x11, 0x01] 0)) (fun t => t.dout == 0x111512CF800) := by
  decide

/-- The state after reset under TC4 (a primary capacity of 4), RB_P set. -/
def withP (slots : List PCode) (n : BitVec 7) : State :=
  { State.resetWith { Config.tc with capP := 4 } with rbP := ⟨slots, n⟩ }

/-- The state after reset, RB_S set (its capacity is 4). -/
def withS (slots : List SCode) (n : BitVec 7) : State := { State.reset with rbS := ⟨slots, n⟩ }

/-- RB-03, RB-12. -/
theorem test_rbClear : goesTo (issued 0x30000000 (withP [4, 5, 0, 0] 2)) (fun t => t.rbP == ⟨[4, 5, 0, 0], 0⟩) := by
  decide
/-- RB-08: the fourth code and the dropped fifth. -/
theorem test_rbPush : goesTo (issued 0x31800002 (withS [0x1234, 0xABCD, 1, 0] 3))
      (fun t => t.rbS == ⟨[0x1234, 0xABCD, 1, 2], 4⟩) ∧
    goesTo (issued 0x31800003 (withS [0x1234, 0xABCD, 1, 2] 4))
      (fun t => t.rbS == ⟨[0x1234, 0xABCD, 1, 2], 4⟩ && t.err == 0) := by decide
/-- RB-06 under TC4. -/
theorem test_rbFill : goesTo (issued 0x32020011 (withP [9, 0, 0, 0] 1))
    (fun t => t.rbP == ⟨[9, 0, 0x11, 0x11], 1⟩) := by decide
/-- RB-10. -/
theorem test_rbFill_above : goesTo (issued 0x323A0022 State.reset) (fun t => t.rbP == State.reset.rbP && t.err == 0) := by
  decide
/-- RB-09. -/
theorem test_rbLen : goesTo (issued 0x33800000 (withS [0x1234, 0xABCD, 1, 2] 4)) (fun t => t.dout == 4) := by decide
/-- RB-09. -/
theorem test_rbRead : goesTo (issued 0x34830000 (withS [0x1234, 0xABCD, 1, 2] 4)) (fun t => t.dout == 2) ∧
    goesTo (issued 0x34840000 (withS [0x1234, 0xABCD, 1, 2] 4)) (fun t => t.dout == 0 && t.err == 2) := by decide

/-- A cycle: the left matrix in DIN, the right matrix in BW, the layers and masks as they were. -/
def cycleState (left right : Data) (ll lr : Layer) (ml : LeftBits) (mr : RightBits) (p : List PCode) (n : BitVec 7) :
    State :=
  { withP p n with din := left, bw := right, layerL := ll, layerR := lr, maskL := ml, maskR := mr }

/-- SYN-03, cycle 2: a layer change blocks position 3 and the shorter report is filled. -/
theorem test_synCycle_blocks : goesTo (issued 0x40000000 (cycleState 0b1001 0 0 0 0 0 [7, 0, 0, 0] 1))
    (fun t => t.layerL == 1 && t.layerR == 1 && t.maskL == 0b1001 && t.rbP == ⟨[0, 0, 0, 0], 0⟩) := by decide
/-- SYN-12, cycle 2, with position 2 pressed too and a capacity of 4 (LAYOUT_R[1][p] = 0x80 + p): per-position codes come
before the combination codes E0, E1, and E1 is dropped. -/
theorem test_synCycle_order : goesTo (issued 0x40000000 (cycleState 1 0b0111 1 1 1 0 [0, 0, 0, 0] 0))
    (fun t => t.rbP == ⟨[0x80, 0x81, 0x82, 0xE0], 4⟩ && t.err == 0) := by decide

/-- SYN-16. -/
theorem test_synRead : goesTo (issued 0x41000002 { State.reset with maskL := 0x21 }) (fun t => t.dout == 0x21) ∧
    goesTo (issued 0x41000001 { State.reset with layerR := 1 }) (fun t => t.dout == 1) := by decide
/-- ST-04. -/
theorem test_statRead : goesTo (issued 0xF0000000 { State.reset with err := 3 })
    (fun t => t.dout == 3 && t.err == 3) := by decide
/-- ST-03: a reserved unit. -/
theorem test_illegal_word : goesTo (issued 0x50000000 State.reset) (fun t => t == { State.reset with err := 1 }) := by
  decide
/-- BW-21: ILL has priority, so the index is not checked. -/
theorem test_ill_before_idx : goesTo (issued 0x01000060 State.reset) (fun t => t.err == 1) := by decide

/-- The very next step performs the word that withFetchWord places. -/
theorem test_withFetchWord : goesTo (step (State.reset.withFetchWord 32 0xF0000000))
    (fun t => t == State.reset) := by decide

/-- R10, D8: an invalid configuration is refused, and SYN.CYCLE with W = 16. -/
theorem test_refusals : configValid (wide 24) = false ∧ cycleAllowed (wide 16) = false ∧
    (match step (State.resetWith (wide 24)) with | .refused .invalidConfig => true | _ => false) = true ∧
    (match issued 0x40000000 (State.resetWith (wide 16)) with | .refused .cycleConfig => true | _ => false) = true := by
  decide

/-! ### Witnesses: states and operands that meet the hypotheses of each statement -/

/-- Small states that satisfy the invariant: TC4 with a full, a partly filled and an empty primary buffer. -/
theorem wit_inv_full : BlockInv (withP [1, 2, 3, 4] 4) := by constructor <;> decide
theorem wit_inv_part : BlockInv (withP [1, 2, 3, 4] 3) := by constructor <;> decide
theorem wit_inv_empty : BlockInv (withP [0, 0, 0, 0] 0) := by constructor <;> decide
theorem wit_inv_secondary : BlockInv (withS [1, 2, 3, 4] 4) ∧ BlockInv (withS [1, 2, 3, 4] 3) := by
  constructor <;> constructor <;> decide

/-- Valid configurations at the ends of R10's ranges, and the widths that allow a cycle. -/
theorem wit_configs : configValid (wide 8) = true ∧ configValid (wide 64) = true ∧ cycleAllowed (wide 32) = true ∧
    cycleAllowed (wide 64) = true ∧ configValid { Config.tc with capP := 127, capS := 1 } = true ∧
    configValid { Config.tc with capP := 1, capS := 127, rfk := [] } = true ∧
    configValid { Config.tc with capP := 128 } = false := by decide

theorem wit_DecodeOfEncode : (Instr.rbFill .secondary 127 0xFFFF).wellFormed = true ∧
    (Instr.rbPush .primary 0xFF).wellFormed = true ∧ (Instr.bwSet 63 true).wellFormed = true := by decide

theorem wit_EncodeOfDecode : decode 0x32FFFFFF = .ok (.rbFill .secondary 127 0xFFFF) ∧
    decode 0x310000FF = .ok (.rbPush .primary 0xFF) := by decide

theorem wit_DecodeFollowsOpcodeTable :
    (∃ r ∈ opcodeTable, r.hits 0x310000FF = true ∧ 0x310000FF &&& r.mask = r.pattern ∧ r.extra 0x310000FF = true) ∧
      ∀ r ∈ opcodeTable, ¬(0x31000100 &&& r.mask = r.pattern ∧ r.extra 0x31000100 = true) :=
  ⟨⟨opcodeTable[13], by simp only [opcodeTable, bwRows, wireRows, rbRows, synRows]; simp, by decide⟩, by
    simp only [opcodeTable, bwRows, wireRows, rbRows, synRows]; decide⟩

/-- For StepRunsDecodedCommand, IllegalWordRaisesIll, OnlyTheHostWritesDin, ConfigurationNeverChanges and
ErrorsRaisedExactly: a legal word in range, a legal word out of range, an illegal word and a DIN write. -/
theorem wit_steps :
    configValid State.reset.cfg = true ∧ decode 0x0100001F = .ok (.bwGet 31) ∧
    indexOutOfRange (.bwGet 31) State.reset = false ∧ indexOutOfRange (.bwGet 32) State.reset = true ∧
    decode 0x01000040 = .error .reservedBit ∧
    goesTo (issued 0x0100001F State.reset) (fun _ => true) ∧ goesTo (issued 0x01000020 State.reset) (fun _ => true) ∧
    goesTo (issued 0x01000040 State.reset) (fun _ => true) ∧
    goesTo (step { State.reset with host := [.writeDin 5] }) (fun t => t.din == 5) := by decide

/-- For InvalidConfigurationRefused: widths on both sides of 29. -/
theorem wit_InvalidConfigurationRefused : configValid (State.resetWith (wide 16)).cfg = true ∧ (wide 16).bwW < 29 ∧
    29 ≤ (wide 32).bwW ∧ configValid (State.resetWith (wide 29)).cfg = false := by decide

/-- For BwGetReadsBit, BwSetWritesBit and BwLaws: the top index and the first one out of range, at W = 32 and 8. -/
theorem wit_index : (31#6).toNat < State.reset.cfg.bwW ∧ State.reset.cfg.bwW ≤ (32#6).toNat ∧
    (63#6).toNat < (wide 64).bwW ∧ (wide 8).bwW ≤ (8#6).toNat ∧ (0#6) ≠ 31#6 := by decide

/-- For BwLdrxLoadsRxValue: both clauses. -/
theorem wit_BwLdrx : (wide 32).bwW ≤ 32 ∧ 32 < (wide 64).bwW := by decide

/-- For RxbReceivesByte and AbsentElementsStop, one state and byte per clause, at the ends of the ranges of FR_FILL, and
for RxValueOnlyOnCompletion. -/
theorem wit_RxbReceivesByte : (0x80 : Byte).getLsbD 7 = true ∧ (0x7F : Byte).getLsbD 7 = false ∧
    (framing #v[0, 0, 0, 0, 0] 0).frFill = 0 ∧ 1 ≤ (framing #v[0, 0, 0, 0, 0] 1).frFill.toNat ∧
    (framing #v[0, 0, 0, 0, 0] 3).frFill.toNat ≤ 3 ∧ (framing #v[0, 0, 0, 0, 0] 4).frFill.toNat = 4 ∧
    4 < (framing #v[0, 0, 0, 0, 0] 5).frFill.toNat ∧
    goesTo (exec (.frRxb 1) (framing #v[0x80, 0, 0, 0, 0] 4)) (fun t => t.rxValue != 0) = true := by decide

/-- For FramerMisframesOnLostStart: a lost start byte after one byte and after four. -/
theorem wit_FramerMisframes : ([1, 2, 3, 4, 0x7F] : List Byte).length = 5 ∧
    (∀ b ∈ ([1, 2, 3, 4, 0x7F] : List Byte), b.getLsbD 7 = false) ∧
    1 ≤ (framing #v[0x80, 0, 0, 0, 0] 1).frFill.toNat ∧ (framing #v[0x80, 0, 0, 0, 0] 4).frFill.toNat ≤ 4 := by decide

/-- For RbPushAppendsOrDrops, RbFillOverwritesTail and PushesAfterClear, with wit_inv_full, wit_inv_part and
wit_inv_secondary: one slot left, and none. -/
theorem wit_RbPush : configValid (withP [1, 2, 3, 4] 3).cfg = true ∧
    (withP [1, 2, 3, 4] 3).rbP.len.toNat < (withP [1, 2, 3, 4] 3).cfg.capP ∧
    (withP [1, 2, 3, 4] 4).rbP.len.toNat = (withP [1, 2, 3, 4] 4).cfg.capP ∧
    (withS [1, 2, 3, 4] 3).rbS.len.toNat < (withS [1, 2, 3, 4] 3).cfg.capS ∧
    (withS [1, 2, 3, 4] 4).rbS.len.toNat = (withS [1, 2, 3, 4] 4).cfg.capS := by decide

/-- For RbReadReadsSlot, the last slot and the first index above, and for AbsentElementsStop a list too short, for each
buffer. -/
theorem wit_RbRead :
    ((3#7).toNat < (withP [1, 2, 3, 4] 0).cfg.capP ∧ (withP [1, 2, 3, 4] 0).rbP.slot[(3#7).toNat]? = some 4) ∧
    (withP [1, 2, 3, 4] 0).cfg.capP ≤ (4#7).toNat ∧
    ((3#7).toNat < (withS [1, 2, 3, 4] 0).cfg.capS ∧ (withS [1, 2, 3, 4] 0).rbS.slot[(3#7).toNat]? = some 4) ∧
    (withS [1, 2, 3, 4] 0).cfg.capS ≤ (4#7).toNat ∧
    (withP [1] 0).rbP.slot[(3#7).toNat]? = none ∧ (withS [1] 0).rbS.slot[(3#7).toNat]? = none := by decide

/-- For BuffersChangeOnlyByNamedCommands, AccessTableHolds and ObserversAndIdempotentCommands: commands that answer a next
state, one that reads and one that writes a buffer, one that raises IDX, and two states that agree on what one reads. -/
theorem wit_exec : goesTo (exec (.rbPush .primary 5) (withP [0, 0, 0, 0] 0)) (fun t => t.rbP.len == 1) = true ∧
    goesTo (exec (.rbRead .primary 3) (withP [1, 2, 3, 4] 0)) (fun t => t.dout == 4) = true ∧
    goesTo (exec (.rbRead .primary 4) (withP [1, 2, 3, 4] 0)) (fun t => t.err == 2) = true ∧
    goesTo (exec (.bwSet 0 true) (withBw 0)) (fun t => t.bw == 1) = true ∧
    (∀ r ∈ regsRead .cdEnc, SameReg r { withDin 5 with dout := 7 } (withDin 5)) :=
  ⟨by decide, by decide, by decide, by decide, by simp [regsRead, SameReg, withDin]⟩

/-- For the last clauses of ObserversAndIdempotentCommands: FR.RXB 0x05 twice in a frame, and SYN-03's cycles 2 to 4 (the
left matrix 0b1001, then 1, then 0b1001 again): position 3 is blocked the first time and reported as 3D the last. -/
theorem wit_not_idempotent : BlockInv (cycleState 0b1001 0 0 0 0 0 [7, 0, 0, 0] 1) ∧
    BlockInv (framing #v[0x85, 0, 0, 0, 0] 1) ∧
    goesTo (exec (.frRxb 5) (framing #v[0x85, 0, 0, 0, 0] 1)) (fun t => t == framing #v[0x85, 5, 0, 0, 0] 2) = true ∧
    goesTo (exec (.frRxb 5) (framing #v[0x85, 5, 0, 0, 0] 2)) (fun t => t == framing #v[0x85, 5, 5, 0, 0] 3) = true ∧
    goesTo (exec .synCycle (cycleState 0b1001 0 0 0 0 0 [7, 0, 0, 0] 1))
      (fun t => t == cycleState 0b1001 0 1 1 0b1001 0 [0, 0, 0, 0] 0) = true ∧
    goesTo (exec .synCycle (cycleState 1 0 1 1 0b1001 0 [0, 0, 0, 0] 0))
      (fun t => t == cycleState 1 0 1 1 1 0 [0, 0, 0, 0] 0) = true ∧
    goesTo (exec .synCycle (cycleState 0b1001 0 1 1 1 0 [0, 0, 0, 0] 0))
      (fun t => t == cycleState 0b1001 0 1 1 1 0 [0x3D, 0, 0, 0] 1) = true :=
  ⟨by constructor <;> decide, by constructor <;> decide, by decide, by decide, by decide, by decide, by decide⟩

/-- For LeftLayerFollowsFunctionKey, CycleUpdatesLayersAndMasks and LayoutLookupsExist: the key pressed, and not. -/
theorem wit_LeftLayer : configValid (withDin 1).cfg = true ∧ (withDin 1).din.getLsbD (withDin 1).cfg.lfk = true ∧
    (withDin 2).din.getLsbD (withDin 2).cfg.lfk = false ∧ cycleAllowed (withDin 1).cfg = true := by decide

/-- For RightLayerFirstMatchWins: the last key of the list pressed alone, and no key. -/
theorem wit_RightLayer : (0#2) ≠ 1 ∧ Config.tc.rfk = [⟨28, 2⟩, ⟨27, 3⟩] ++ ⟨26, 1⟩ :: [] ∧
    (∀ q ∈ ([⟨28, 2⟩, ⟨27, 3⟩] : List FnKey), (0x4000000#29).getLsbD q.pos = false) ∧
    (0x4000000#29).getLsbD 26 = true ∧ (∀ q ∈ Config.tc.rfk, (0#29).getLsbD q.pos = false) := by decide

/-- For the statements about a cycle: a state that meets the invariant, under a configuration that allows it, in which
the cycle answers a next state; in the first the report gets shorter, in the second it does not. -/
theorem wit_cycle :
    BlockInv (cycleState 0b1001 0 0 0 0 0 [7, 0, 0, 0] 1) ∧ BlockInv (cycleState 1 0b1111 1 1 1 0 [0, 0, 0, 0] 0) ∧
    cycleAllowed (cycleState 0b1001 0 0 0 0 0 [7, 0, 0, 0] 1).cfg = true ∧
    goesTo (exec .synCycle (cycleState 0b1001 0 0 0 0 0 [7, 0, 0, 0] 1)) (fun t => t.rbP.len == 0) = true ∧
    goesTo (exec .synCycle (cycleState 1 0b1111 1 1 1 0 [0, 0, 0, 0] 0)) (fun t => t.rbP.len == 4) = true :=
  ⟨by constructor <;> decide, by constructor <;> decide, by decide, by decide, by decide⟩

/-- For FunctionKeyNeverEmitted and SentinelTailKept: the key held on layer 1 and blocked, the tail at its sentinel. -/
theorem wit_kept : FunctionKeyBlocked (cycleState 1 0 1 1 1 0 [5, 0, 0, 0] 1) ∧
    (cycleState 1 0 1 1 1 0 [5, 0, 0, 0] 1).layerL ≠ 0 ∧
    goesTo (issued 0x40000000 (cycleState 1 0 1 1 1 0 [5, 0, 0, 0] 1)) (fun t => t.layerL == 1) = true ∧
    SentinelTail (cycleState 1 0 1 1 1 0 [5, 0, 0, 0] 1) := by
  refine ⟨fun _ => by decide, by decide, by decide, fun i h1 h2 => ?_, fun i h1 h2 => ?_⟩
  · have hi : i < 4 := h2
    have h1' : 1 ≤ i := h1
    interval_cases i <;> rfl
  · have hi : i < 4 := h2
    interval_cases i <;> rfl

/-- For CycleReadsOnlyItsOperands: two states that agree on the operands and differ elsewhere (DOUT, RX_VALUE, the high
bits of DIN and BW). -/
theorem wit_CycleReadsOnlyItsOperands :
    let s := cycleState 0x40000008 0xB0000000 0 0 0 0 [0, 0, 0, 0] 0
    let s' := { cycleState 0x8 0x10000000 0 0 0 0 [0, 0, 0, 0] 0 with dout := 9, rxValue := 3 }
    s.din.extractLsb' 0 30 = s'.din.extractLsb' 0 30 ∧ s.bw.extractLsb' 0 29 = s'.bw.extractLsb' 0 29 ∧ s ≠ s' := by
  decide

/-- A run for BlockedUntilReleased: two cycles with the left function key, left position 3 and right position 0 held
(SYN-03 cycle 2 with a right position, then the same matrices again), then idle. -/
def blockedRun : Nat → State
  | 0 => { cycleState 0b1001 1 0 0 0 0 [7, 0, 0, 0] 1 with host := [.command 0x40000000, .command 0x40000000] }
  | 1 => { cycleState 0b1001 1 1 1 0b1001 1 [0, 0, 0, 0] 0 with host := [.command 0x40000000] }
  | _ => cycleState 0b1001 1 1 1 0b1001 1 [0, 0, 0, 0] 0

theorem wit_BlockedUntilReleased_steps :
    goesTo (step (blockedRun 0)) (fun t => t == blockedRun 1) = true ∧
      goesTo (step (blockedRun 1)) (fun t => t == blockedRun 2) = true := by decide
theorem wit_BlockedUntilReleased :
    CycleNext (blockedRun 0) ∧ CycleNext (blockedRun 1) ∧ cycleLeft (blockedRun 0) ≠ (blockedRun 0).layerL ∧
      cycleRight (blockedRun 0) ≠ (blockedRun 0).layerR ∧ (leftMatrix (blockedRun 0)).getLsbD 3 = true ∧
      (leftMatrix (blockedRun 1)).getLsbD 3 = true ∧ (rightMatrix (blockedRun 0)).getLsbD 0 = true ∧
      (rightMatrix (blockedRun 1)).getLsbD 0 = true :=
  ⟨⟨_, _, rfl, by decide⟩, ⟨_, _, rfl, by decide⟩, by decide, by decide, by decide, by decide, by decide, by decide⟩

/-- For ErrBitsAreSticky: a state with a bit set, from which a step answers. -/
theorem wit_ErrBitsAreSticky : goesTo (issued 0x05000000 { State.reset with err := 2 })
    (fun t => t.err.getLsbD 1) = true := by decide

/-- For StepKeepsInvariant, NoStepStalls and ResetMeetsInvariant. -/
theorem wit_StepKeepsInvariant : BlockInv (cycleState 1 0 1 1 1 0 [5, 0, 0, 0] 1) ∧
    configValid (cycleState 1 0 1 1 1 0 [5, 0, 0, 0] 1).cfg = true ∧
    29 ≤ (cycleState 1 0 1 1 1 0 [5, 0, 0, 0] 1).cfg.bwW ∧
    goesTo (step (cycleState 1 0 1 1 1 0 [5, 0, 0, 0] 1)) (fun _ => true) = true :=
  ⟨by constructor <;> decide, by decide, by decide, by decide⟩

/-- For ReceivingIterationCompletes: an iteration with a byte and one without, buffers of one and two slots. -/
def smallLoop (byte : Option Byte) : State :=
  let c := { Config.tc with capP := 2, capS := 1 }
  { State.resetWith c with host := receivingIteration c byte 8, rxValue := 2 }

theorem wit_ReceivingIteration : BlockInv (smallLoop none) ∧ BlockInv (smallLoop (some 0x81)) ∧
    cycleAllowed (smallLoop none).cfg = true ∧ (smallLoop none).host.length = 6 ∧
    (smallLoop (some 0x81)).host.length = 7 :=
  ⟨by constructor <;> decide, by constructor <;> decide, by decide, by decide, by decide⟩

/-- Six actions of the loop (R203) from that state: the report is [07, 61] (LAYOUT_L[0][3], LAYOUT_R[0][1]), and DOUT
holds the last slot read, the secondary sentinel. -/
theorem test_receivingIteration : goesTo (core.run 6 (smallLoop none))
    (fun t => t.host == [] && t.rbP == ⟨[0x07, 0x61], 2⟩ && t.err == 0 && t.dout == 0) = true := by decide

end Sys2Proof.Tests
end

/-! ### A valid configuration, clause by clause (00_scope.md R10) -/

section
namespace Sys2Proof.Machine

theorem widthValid_iff (c : Config) :
    widthValid c = true ↔ c.bwW = 8 ∨ c.bwW = 16 ∨ c.bwW = 32 ∨ c.bwW = 64 := by
  simp [widthValid, or_assoc]

theorem capsValid_iff (c : Config) :
    capsValid c = true ↔ (1 ≤ c.capP ∧ c.capP ≤ 127) ∧ 1 ≤ c.capS ∧ c.capS ≤ 127 := by
  simp [capsValid, and_assoc]

theorem keysValid_iff (c : Config) :
    keysValid c = true ↔ c.lfk < 30 ∧ (2 ≤ c.nlR ∧ c.nlR ≤ 4) ∧ c.rfk.length ≤ 3 ∧
      ∀ k ∈ c.rfk, k.pos < 29 ∧ k.layer.toNat < c.nlR := by
  simp [keysValid, and_assoc]

theorem layoutsValid_iff (c : Config) :
    layoutsValid c = true ↔ (c.layoutL.length = 2 ∧ ∀ row ∈ c.layoutL, row.length = 30) ∧
      c.layoutR.length = c.nlR ∧ ∀ row ∈ c.layoutR, row.length = 29 := by
  simp [layoutsValid]

theorem configValid_iff (c : Config) :
    configValid c = true ↔
      widthValid c = true ∧ capsValid c = true ∧ keysValid c = true ∧ layoutsValid c = true := by
  simp [configValid, and_assoc]

theorem nlR_pos_of_valid {c : Config} (h : configValid c = true) : 0 < c.nlR := by
  obtain ⟨-, -, hkeys, -⟩ := (configValid_iff c).mp h
  obtain ⟨-, ⟨hnl, -⟩, -⟩ := (keysValid_iff c).mp hkeys
  omega

end Sys2Proof.Machine
end

/-! ### What a step does on each kind of action (20_memory.md R58, R62) -/

section
namespace Sys2Proof.Machine

theorem step_of_invalid {s : State} (h : configValid s.cfg = false) : step s = .refused .invalidConfig := by
  simp [step, h]

theorem step_of_no_action {s : State} (hv : configValid s.cfg = true) (hh : s.host = []) : step s = .next s := by
  simp [step, takeAction, idle, hv, hh]

theorem step_of_writeDin {s : State} {v : Data} {rest : List HostAction} (hv : configValid s.cfg = true)
    (hh : s.host = .writeDin v :: rest) : step s = .next (hostWriteDin v (s.setHost rest)) := by
  simp [step, takeAction, hv, hh]

theorem step_of_command {s : State} {w : CmdWord} {rest : List HostAction} (hv : configValid s.cfg = true)
    (hh : s.host = .command w :: rest) : step s = issue w (s.setHost rest) := by
  simp [step, takeAction, hv, hh]

theorem issue_of_legal {w : CmdWord} {i : Instr} (s : State) (h : decode w = .ok i) : issue w s = exec i s := by
  simp [issue, h]

theorem issue_of_illegal {w : CmdWord} {e : Illegal} (s : State) (h : decode w = .error e) :
    issue w s = .next (raise .ill s) := by
  simp [issue, h]

theorem execSynCycle_of_not_allowed {s : State} (h : ¬ cycleAllowed s.cfg = true) :
    execSynCycle s = .refused .cycleConfig :=
  if_neg h

end Sys2Proof.Machine
end

/-! ### Which commands complete (70_reset_and_hazards.md R206): one lemma per meaning that branches -/

section
namespace Sys2Proof.Machine

theorem execBwGet_completes (idx : BitVec 6) (s : State) : ∃ t, execBwGet idx s = .next t := by
  unfold execBwGet
  split <;> exact ⟨_, rfl⟩

theorem execBwSet_completes (idx : BitVec 6) (val : Bool) (s : State) : ∃ t, execBwSet idx val s = .next t := by
  unfold execBwSet
  split <;> exact ⟨_, rfl⟩

theorem execRbPush_completes (sel : Sel) (code : BitVec 16) (s : State) : ∃ t, execRbPush sel code s = .next t := by
  cases sel <;> exact ⟨_, rfl⟩

theorem execRbFill_completes (sel : Sel) (ix : BitVec 7) (code : BitVec 16) (s : State) :
    ∃ t, execRbFill sel ix code s = .next t := by
  cases sel <;> exact ⟨_, rfl⟩

theorem execSynRead_completes (which : Which) (s : State) : ∃ t, execSynRead which s = .next t := by
  cases which <;> exact ⟨_, rfl⟩

/-- A fill count of R26's range names a byte that FR_BUF has. -/
theorem execFrRxb_completes (b : Byte) {s : State} (hf : s.frFill.toNat ≤ 4) : ∃ t, execFrRxb b s = .next t := by
  cases hb : b.getLsbD 7 with
  | true => exact ⟨_, execFrRxb_start hb⟩
  | false =>
    obtain h0 | ⟨h1, h3⟩ | h4 : s.frFill.toNat = 0 ∨ (1 ≤ s.frFill.toNat ∧ s.frFill.toNat ≤ 3) ∨
        s.frFill.toNat = 4 := by omega
    · exact ⟨_, execFrRxb_discard hb h0⟩
    · exact ⟨_, execFrRxb_continue hb h1 h3⟩
    · exact ⟨_, execFrRxb_complete hb h4⟩

/-- Every index below CAP names a slot (R28). -/
theorem slotData_exists {s : State} (hinv : BlockInv s) {sel : Sel} {i : Nat} (hi : i < capOf s.cfg sel) :
    ∃ v, slotData s sel i = some v := by
  cases sel with
  | primary =>
    have hlt : i < s.rbP.slot.length := hinv.slotsP ▸ hi
    simp [slotData, hlt]
  | secondary =>
    have hlt : i < s.rbS.slot.length := hinv.slotsS ▸ hi
    simp [slotData, hlt]

theorem execRbRead_completes (sel : Sel) (ix : BitVec 7) {s : State} (hinv : BlockInv s) :
    ∃ t, execRbRead sel ix s = .next t := by
  unfold execRbRead
  split
  next => exact ⟨_, rfl⟩
  next hix =>
    obtain ⟨v, hv⟩ := slotData_exists hinv (Nat.lt_of_not_le hix)
    exact ⟨s.setDout v, by rw [hv]⟩

/-- In a state of the invariant every command completes, SYN.CYCLE where R10 allows it. -/
theorem exec_completes (i : Instr) {s : State} (hinv : BlockInv s)
    (hcycle : i = .synCycle → cycleAllowed s.cfg = true) : ∃ t, exec i s = .next t := by
  cases i with
  | bwGet idx => exact execBwGet_completes idx s
  | bwSet idx val => exact execBwSet_completes idx val s
  | frRxb b => exact execFrRxb_completes b hinv.fillLow
  | rbPush sel code => exact execRbPush_completes sel code s
  | rbFill sel ix code => exact execRbFill_completes sel ix code s
  | rbRead sel ix => exact execRbRead_completes sel ix hinv
  | synCycle => exact ⟨_, execSynCycle_of_allowed (hcycle rfl)⟩
  | synRead which => exact execSynRead_completes which s
  | bwNew | bwGetraw | bwSetraw | bwClear | bwLdrx | cdEnc | cdDec | frRdval | frStat | rbClear | rbLen | statRead =>
    exact ⟨_, rfl⟩

end Sys2Proof.Machine
end

/-! ### The invariant after reset and across a change of the host's list -/

section
namespace Sys2Proof
open Sys2Proof.Machine

/-- The invariant does not read the host's list. -/
theorem BlockInv.setHost {s : State} (h : BlockInv s) (rest : List HostAction) : BlockInv (s.setHost rest) :=
  { h with }

/-- The reset values of R45 are in the ranges of the invariant. -/
theorem blockInv_resetWith {c : Config} (h : configValid c = true) : BlockInv (State.resetWith c) where
  bwFits := lowBits_zero c.bwW
  fillLow := by simp [State.resetWith]
  slotsP := List.length_replicate
  lenP := Nat.zero_le _
  slotsS := List.length_replicate
  lenS := Nat.zero_le _
  layerLow := .inl rfl
  layerR := nlR_pos_of_valid h

theorem configValid_tc : configValid Config.tc = true := by decide

end Sys2Proof
end

/-! ### Settled: configurations, reset and completion -/

section
namespace Sys2Proof
open Sys2Proof.Machine

/-- Settles O9: the four checks of `configValid` give R10's clauses, and `cycleAllowed` decides SYN.CYCLE. -/
theorem invalidConfigurationRefused : Obligations.InvalidConfigurationRefused := by
  refine ⟨fun c => ?clauses, fun s => step_of_invalid, fun s hvalid => ⟨⟨?wide, ?runs⟩, ?narrow⟩⟩
  case clauses =>
    simp only [configValid_iff, widthValid_iff, capsValid_iff, keysValid_iff, layoutsValid_iff, and_assoc]
  case wide =>
    rintro ⟨t, ht⟩
    obtain ⟨hallowed, -⟩ := execSynCycle_cases ht
    exact ((cycleAllowed_iff s.cfg).mp hallowed).2
  case runs =>
    intro hw
    exact ⟨_, execSynCycle_of_allowed ((cycleAllowed_iff s.cfg).mpr ⟨hvalid, hw⟩)⟩
  case narrow =>
    intro hw
    refine execSynCycle_of_not_allowed fun hallowed => ?_
    have := ((cycleAllowed_iff s.cfg).mp hallowed).2
    omega

/-- Settles O58, by cases on the host's next action: an illegal word raises ILL, a legal one completes in a state of
the invariant. -/
theorem noStepStalls : Obligations.NoStepStalls := by
  refine ⟨fun s hvalid hinv hcycle => ?_, fun s => step_of_no_action⟩
  cases hh : s.host with
  | nil => exact ⟨s, step_of_no_action hvalid hh⟩
  | cons a rest =>
    cases a with
    | writeDin v => exact ⟨_, step_of_writeDin hvalid hh⟩
    | command w =>
      rw [step_of_command hvalid hh]
      cases hd : decode w with
      | error e => exact ⟨_, issue_of_illegal _ hd⟩
      | ok i =>
        rw [issue_of_legal _ hd]
        refine exec_completes i (hinv.setHost rest) fun hi => (cycleAllowed_iff s.cfg).mpr ⟨hvalid, ?_⟩
        exact hcycle ⟨w, rest, hh, hi ▸ hd⟩

/-- Settles O56: the reset values lie in the invariant's ranges, and TC is valid. -/
theorem resetMeetsInvariant : Obligations.ResetMeetsInvariant :=
  ⟨fun _ => blockInv_resetWith, configValid_tc, blockInv_resetWith configValid_tc, rfl⟩

end Sys2Proof
end

/-! ### Which registers a command may have written (10_state.md R41) -/

section
namespace Sys2Proof
open Sys2Proof.Machine

/-- From `s` to `t` only the registers `regs` and ERR can have changed. -/
structure WritesOnly (regs : List Reg) (s t : State) : Prop where
  cfg  : t.cfg = s.cfg
  host : t.host = s.host
  same : ∀ r, r ∉ regs → r ≠ .err → SameReg r t s

variable {regs : List Reg} (s : State)

/-- The registers that the BitWord Set, the wire commands and the errors write, in one rule: whatever of them is not in
`regs` is as before, and every other field is as before. -/
theorem writesOnly_of_data {s t : State}
    (ht : t = { s with
      dout := t.dout, bw := t.bw, frBuf := t.frBuf, frFill := t.frFill, rxValue := t.rxValue, err := t.err })
    (h : ∀ r ∈ [Reg.dout, .bw, .frBuf, .frFill, .rxValue], r ∉ regs → SameReg r t s) : WritesOnly regs s t where
  cfg := by rw [ht]
  host := by rw [ht]
  same r hr he := by
    cases r with
    | dout | bw | frBuf | frFill | rxValue => exact h _ (by simp) hr
    | err => exact absurd rfl he
    | len sel | slots sel => rw [ht]; cases sel <;> rfl
    | din | layerL | layerR | maskL | maskR => rw [ht]; rfl

theorem writesOnly_raise (e : ErrFlag) : WritesOnly regs s (raise e s) :=
  writesOnly_of_data rfl (by simp [SameReg, raise])

theorem writesOnly_setDout (v : Data) (h : .dout ∈ regs) : WritesOnly regs s (s.setDout v) :=
  writesOnly_of_data rfl (by simp [SameReg, h])

theorem writesOnly_setBw (v : Data) (h : .bw ∈ regs) : WritesOnly regs s (s.setBw v) :=
  writesOnly_of_data rfl (by simp [SameReg, h])

/-- FR.RXB in each of its four cases. -/
theorem writesOnly_execFrRxb {b : Byte} {t : State} (h : execFrRxb b s = .next t) :
    WritesOnly (regsWritten (.frRxb b)) s t := by
  have hwritten : ∀ u : State, u.bw = s.bw →
      ∀ r ∈ [Reg.dout, .bw, .frBuf, .frFill, .rxValue], r ∉ regsWritten (.frRxb b) → SameReg r u s := by
    simp [regsWritten, SameReg]
  obtain ⟨-, rfl⟩ | ⟨-, -, rfl⟩ | ⟨-, -, -, rfl⟩ | ⟨-, -, rfl⟩ := execFrRxb_cases h <;>
    exact writesOnly_of_data rfl (hwritten _ rfl)

/-- A new RB_P, which may keep its old length or its old slots. -/
theorem writesOnly_setRbP (b : ReportBuffer 8) (hlen : .len .primary ∈ regs ∨ b.len = s.rbP.len)
    (hslots : .slots .primary ∈ regs ∨ b.slot = s.rbP.slot) : WritesOnly regs s (s.setRbP b) where
  cfg := rfl
  host := rfl
  same r hr _ := by
    cases r with
    | len sel =>
      cases sel with
      | primary => exact hlen.resolve_left hr
      | secondary => rfl
    | slots sel =>
      cases sel with
      | primary => exact hslots.resolve_left hr
      | secondary => rfl
    | _ => rfl

/-- A new RB_S, which may keep its old length or its old slots. -/
theorem writesOnly_setRbS (b : ReportBuffer 16) (hlen : .len .secondary ∈ regs ∨ b.len = s.rbS.len)
    (hslots : .slots .secondary ∈ regs ∨ b.slot = s.rbS.slot) : WritesOnly regs s (s.setRbS b) where
  cfg := rfl
  host := rfl
  same r hr _ := by
    cases r with
    | len sel =>
      cases sel with
      | primary => rfl
      | secondary => exact hlen.resolve_left hr
    | slots sel =>
      cases sel with
      | primary => rfl
      | secondary => exact hslots.resolve_left hr
    | _ => rfl

theorem writesOnly_clearBuffer (sel : Sel) : WritesOnly [.len sel] s (clearBuffer sel s) := by
  cases sel with
  | primary => exact writesOnly_setRbP s _ (.inl (.head _)) (.inr rfl)
  | secondary => exact writesOnly_setRbS s _ (.inl (.head _)) (.inr rfl)

theorem writesOnly_synCycle : WritesOnly (regsWritten .synCycle) s (synCycle s) := by
  rw [synCycle_eq]
  refine ⟨rfl, rfl, fun r hr _ => ?_⟩
  cases r with
  | layerL | layerR | maskL | maskR => simp [regsWritten] at hr
  | len sel | slots sel => cases sel <;> simp [regsWritten] at hr
  | _ => rfl

/-- R41's column w: a command that completes has written no register that it is not listed as writing. -/
theorem exec_writesOnly (i : Instr) {s t : State} (h : exec i s = .next t) : WritesOnly (regsWritten i) s t := by
  cases i with
  | bwNew | bwSetraw | bwClear | bwLdrx => cases h; exact writesOnly_setBw s _ (.head _)
  | bwGetraw | cdEnc | cdDec | frRdval | frStat | rbLen | statRead => cases h; exact writesOnly_setDout s _ (.head _)
  | bwGet idx =>
    obtain ⟨-, rfl⟩ | ⟨-, rfl⟩ := execBwGet_cases h
    · exact writesOnly_raise s _
    · exact writesOnly_setDout s _ (.head _)
  | bwSet idx val =>
    obtain ⟨-, rfl⟩ | ⟨-, rfl⟩ := execBwSet_cases h
    · exact writesOnly_raise s _
    · exact writesOnly_setBw s _ (.head _)
  | frRxb b => exact writesOnly_execFrRxb s h
  | rbClear sel => cases h; exact writesOnly_clearBuffer s sel
  | rbPush sel code =>
    cases sel with
    | primary => cases h; exact writesOnly_setRbP s _ (.inl (.head _)) (.inl (.tail _ (.head _)))
    | secondary => cases h; exact writesOnly_setRbS s _ (.inl (.head _)) (.inl (.tail _ (.head _)))
  | rbFill sel ix code =>
    cases sel with
    | primary => cases h; exact writesOnly_setRbP s _ (.inr rfl) (.inl (.head _))
    | secondary => cases h; exact writesOnly_setRbS s _ (.inr rfl) (.inl (.head _))
  | rbRead sel ix =>
    obtain ⟨-, rfl⟩ | ⟨-, v, -, rfl⟩ := execRbRead_cases h
    · exact writesOnly_raise s _
    · exact writesOnly_setDout s _ (.head _)
  | synCycle =>
    obtain ⟨-, rfl⟩ := execSynCycle_cases h
    exact writesOnly_synCycle s
  | synRead which => cases which <;> (cases h; exact writesOnly_setDout s _ (.head _))

end Sys2Proof
end

/-! ### Which command can have written a register: R41's table read by columns -/

section
namespace Sys2Proof.Machine.ReportBuffer

theorem eq_of_len_of_slot {w : Nat} {b b' : ReportBuffer w} (hlen : b.len = b'.len)
    (hslot : b.slot = b'.slot) : b = b' := by
  cases b
  cases b'
  congr

end Sys2Proof.Machine.ReportBuffer

namespace Sys2Proof
open Sys2Proof.Machine

theorem din_not_written (i : Instr) : .din ∉ regsWritten i := by
  cases i <;> simp [regsWritten]

theorem rxValue_written {i : Instr} (h : .rxValue ∈ regsWritten i) : ∃ b, i = .frRxb b := by
  cases i <;> simp [regsWritten] at h ⊢

theorem len_written {sel : Sel} {i : Instr} (h : .len sel ∈ regsWritten i) :
    i = .rbClear sel ∨ (∃ c, i = .rbPush sel c) ∨ i = .synCycle := by
  cases i <;> simp_all [regsWritten]

theorem slots_written {sel : Sel} {i : Instr} (h : .slots sel ∈ regsWritten i) :
    (∃ c, i = .rbPush sel c) ∨ (∃ f c, i = .rbFill sel f c) ∨ i = .synCycle := by
  cases i <;> simp_all [regsWritten]

/-- The commands that R139 allows to change a buffer. -/
def ChangesBuffer (sel : Sel) (i : Instr) : Prop :=
  i = .rbClear sel ∨ (∃ c, i = .rbPush sel c) ∨ (∃ f c, i = .rbFill sel f c) ∨ i = .synCycle

theorem changesBuffer_of_written {sel : Sel} {i : Instr}
    (h : .len sel ∈ regsWritten i ∨ .slots sel ∈ regsWritten i) : ChangesBuffer sel i := by
  rcases h with h | h
  · obtain h | h | h := len_written h
    · exact .inl h
    · exact .inr (.inl h)
    · exact .inr (.inr (.inr h))
  · exact .inr (slots_written h)

theorem exec_rbP_eq {i : Instr} {s t : State} (h : exec i s = .next t) (hi : ¬ ChangesBuffer .primary i) :
    t.rbP = s.rbP := by
  have hw := exec_writesOnly i h
  obtain ⟨hlen, hslots⟩ := not_or.mp (mt changesBuffer_of_written hi)
  exact ReportBuffer.eq_of_len_of_slot (hw.same _ hlen nofun) (hw.same _ hslots nofun)

theorem exec_rbS_eq {i : Instr} {s t : State} (h : exec i s = .next t) (hi : ¬ ChangesBuffer .secondary i) :
    t.rbS = s.rbS := by
  have hw := exec_writesOnly i h
  obtain ⟨hlen, hslots⟩ := not_or.mp (mt changesBuffer_of_written hi)
  exact ReportBuffer.eq_of_len_of_slot (hw.same _ hlen nofun) (hw.same _ hslots nofun)

end Sys2Proof
end

/-! ### What a command writes depends only on what R41 lists it as reading -/

section
namespace Sys2Proof
open Sys2Proof.Machine

/-- The results `t` from `s` and `t'` from `s'` agree on `regs`: each is set alike or left alone in both, and ERR.IDX is
raised in both or in neither. -/
def WritesAlike (regs : List Reg) (s t s' t' : State) : Prop :=
  (∀ r ∈ regs, SameReg r t' t ∨ (SameReg r t' s' ∧ SameReg r t s)) ∧
    ((t'.err = s'.err ∧ t.err = s.err) ∨ (t'.err = s'.err ||| 2 ∧ t.err = s.err ||| 2))

variable {s s' : State}

theorem writesAlike_setDout {v v' : Data} (hv : v' = v) : WritesAlike [.dout] s (s.setDout v) s' (s'.setDout v') :=
  ⟨List.forall_mem_singleton.mpr (.inl hv), .inl ⟨rfl, rfl⟩⟩

theorem writesAlike_setBw {v v' : Data} (hcfg : s'.cfg = s.cfg) (hv : v' = v) :
    WritesAlike [.bw] s (s.setBw v) s' (s'.setBw v') :=
  ⟨List.forall_mem_singleton.mpr (.inl (by simp [SameReg, hcfg, hv])), .inl ⟨rfl, rfl⟩⟩

/-- An error leaves in both states what the command would have written. -/
theorem writesAlike_raise {r : Reg} (hr : r ≠ .err) : WritesAlike [r] s (raise .idx s) s' (raise .idx s') :=
  have hkept (u : State) : SameReg r (raise .idx u) u :=
    (writesOnly_raise (regs := []) u .idx).same r List.not_mem_nil hr
  ⟨List.forall_mem_singleton.mpr (.inr ⟨hkept s', hkept s⟩), .inr ⟨rfl, rfl⟩⟩

theorem bwValue_congr (hcfg : s'.cfg = s.cfg) (hbw : s'.bw = s.bw) : bwValue s' = bwValue s := by
  simp [bwValue, hcfg, hbw]

theorem slotData_congr {sel : Sel} (h : SameReg (.slots sel) s' s) (i : Nat) :
    slotData s' sel i = slotData s sel i := by
  cases sel <;> exact congrArg (fun l => Option.map _ l[i]?) h

theorem bufferLen_congr {sel : Sel} (h : SameReg (.len sel) s' s) : bufferLen s' sel = bufferLen s sel := by
  cases sel <;> exact h

theorem execBwGet_writesAlike {idx : BitVec 6} {t : State} (h : execBwGet idx s = .next t) (hcfg : s'.cfg = s.cfg)
    (hbw : s'.bw = s.bw) : ∃ t', execBwGet idx s' = .next t' ∧ WritesAlike [.dout] s t s' t' := by
  obtain ⟨hidx, rfl⟩ | ⟨hidx, rfl⟩ := execBwGet_cases h
  · exact ⟨_, if_pos (by rwa [hcfg]), writesAlike_raise nofun⟩
  · exact ⟨_, if_neg (by rw [hcfg]; omega), writesAlike_setDout (by rw [bwValue_congr hcfg hbw])⟩

theorem execBwSet_writesAlike {idx : BitVec 6} {val : Bool} {t : State} (h : execBwSet idx val s = .next t)
    (hcfg : s'.cfg = s.cfg) (hbw : s'.bw = s.bw) :
    ∃ t', execBwSet idx val s' = .next t' ∧ WritesAlike [.bw] s t s' t' := by
  obtain ⟨hidx, rfl⟩ | ⟨hidx, rfl⟩ := execBwSet_cases h
  · exact ⟨_, if_pos (by rwa [hcfg]), writesAlike_raise nofun⟩
  · exact ⟨_, if_neg (by rw [hcfg]; omega), writesAlike_setBw hcfg (by rw [bwValue_congr hcfg hbw])⟩

theorem execFrRxb_writesAlike {b : Byte} {t : State} (h : execFrRxb b s = .next t) (hbuf : s'.frBuf = s.frBuf)
    (hfill : s'.frFill = s.frFill) :
    ∃ t', execFrRxb b s' = .next t' ∧ WritesAlike (regsWritten (.frRxb b)) s t s' t' := by
  obtain ⟨hb, rfl⟩ | ⟨hb, h0, rfl⟩ | ⟨hb, h1, h3, rfl⟩ | ⟨hb, h4, rfl⟩ := execFrRxb_cases h
  case inl =>
    exact ⟨_, execFrRxb_start hb, by simp [regsWritten, SameReg, hbuf], .inl ⟨rfl, rfl⟩⟩
  case inr.inl =>
    exact ⟨_, execFrRxb_discard hb (hfill ▸ h0), by simp [regsWritten, SameReg], .inl ⟨rfl, rfl⟩⟩
  case inr.inr.inl =>
    exact ⟨_, execFrRxb_continue hb (hfill ▸ h1) (hfill ▸ h3), by simp [regsWritten, SameReg, hbuf, hfill],
      .inl ⟨rfl, rfl⟩⟩
  case inr.inr.inr =>
    exact ⟨_, execFrRxb_complete hb (hfill ▸ h4), by simp [regsWritten, SameReg, hbuf, hfill], .inl ⟨rfl, rfl⟩⟩

theorem execRbRead_writesAlike {sel : Sel} {ix : BitVec 7} {t : State} (h : execRbRead sel ix s = .next t)
    (hcfg : s'.cfg = s.cfg) (hslots : SameReg (.slots sel) s' s) :
    ∃ t', execRbRead sel ix s' = .next t' ∧ WritesAlike [.dout] s t s' t' := by
  obtain ⟨hix, rfl⟩ | ⟨hix, v, hv, rfl⟩ := execRbRead_cases h
  · exact ⟨_, if_pos (by rwa [hcfg]), writesAlike_raise nofun⟩
  · refine ⟨s'.setDout v, ?_, writesAlike_setDout rfl⟩
    unfold execRbRead
    rw [if_neg (by rw [hcfg]; omega), slotData_congr hslots, hv]

theorem execRbPush_writesAlike {sel : Sel} {code : BitVec 16} {t : State} (h : execRbPush sel code s = .next t)
    (hcfg : s'.cfg = s.cfg) (hlen : SameReg (.len sel) s' s) (hslots : SameReg (.slots sel) s' s) :
    ∃ t', execRbPush sel code s' = .next t' ∧ WritesAlike [.len sel, .slots sel] s t s' t' := by
  cases sel with
  | primary =>
    cases h
    refine ⟨_, rfl, ?_, .inl ⟨rfl, rfl⟩⟩
    have hb : s'.rbP = s.rbP := ReportBuffer.eq_of_len_of_slot hlen hslots
    simp [SameReg, pushPrimary, hb, hcfg]
  | secondary =>
    cases h
    refine ⟨_, rfl, ?_, .inl ⟨rfl, rfl⟩⟩
    have hb : s'.rbS = s.rbS := ReportBuffer.eq_of_len_of_slot hlen hslots
    simp [SameReg, pushSecondary, hb, hcfg]

theorem execRbFill_writesAlike {sel : Sel} {ix : BitVec 7} {code : BitVec 16} {t : State}
    (h : execRbFill sel ix code s = .next t) (hcfg : s'.cfg = s.cfg) (hslots : SameReg (.slots sel) s' s) :
    ∃ t', execRbFill sel ix code s' = .next t' ∧ WritesAlike [.slots sel] s t s' t' := by
  cases sel with
  | primary =>
    cases h
    have hs : s'.rbP.slot = s.rbP.slot := hslots
    exact ⟨_, rfl, by simp [SameReg, fillPrimary, ReportBuffer.fill, hs, hcfg], .inl ⟨rfl, rfl⟩⟩
  | secondary =>
    cases h
    have hs : s'.rbS.slot = s.rbS.slot := hslots
    exact ⟨_, rfl, by simp [SameReg, fillSecondary, ReportBuffer.fill, hs, hcfg], .inl ⟨rfl, rfl⟩⟩

theorem clearBuffer_writesAlike (sel : Sel) : WritesAlike [.len sel] s (clearBuffer sel s) s' (clearBuffer sel s') := by
  cases sel <;> exact ⟨List.forall_mem_singleton.mpr (.inl rfl), .inl ⟨rfl, rfl⟩⟩

/-- A cycle reads neither DOUT, the framer's registers nor ERR: whatever these hold, it writes the same values. -/
theorem synCycle_withUnread (s : State) (host : List HostAction) (dout : Data) (frBuf : Frame) (frFill : BitVec 3)
    (rxValue : Payload) (err : BitVec 2) :
    synCycle { s with host, dout, frBuf, frFill, rxValue, err } =
      { synCycle s with host, dout, frBuf, frFill, rxValue, err } := by
  rw [synCycle_eq, synCycle_eq]
  rfl

/-- A state that agrees with `s` on the configuration and on R41's registers of a cycle differs from it only in the
registers that a cycle does not read. -/
theorem eq_of_regsRead_synCycle (hcfg : s'.cfg = s.cfg) (hread : ∀ r ∈ regsRead .synCycle, SameReg r s' s) :
    s' = { s with
      host := s'.host, dout := s'.dout, frBuf := s'.frBuf, frFill := s'.frFill, rxValue := s'.rxValue,
      err := s'.err } := by
  simp only [regsRead, List.forall_mem_cons, SameReg] at hread
  obtain ⟨hdin, hbw, hlenP, hslotsP, hlenS, hslotsS, hlayerL, hlayerR, hmaskL, hmaskR, -⟩ := hread
  have hP := ReportBuffer.eq_of_len_of_slot hlenP hslotsP
  have hS := ReportBuffer.eq_of_len_of_slot hlenS hslotsS
  cases s'
  simp_all

theorem synCycle_writesAlike (hcfg : s'.cfg = s.cfg) (hread : ∀ r ∈ regsRead .synCycle, SameReg r s' s) :
    WritesAlike (regsWritten .synCycle) s (synCycle s) s' (synCycle s') := by
  have herr : ∀ u : State, (synCycle u).err = u.err := fun u => by rw [synCycle_eq]
  refine ⟨fun r hr => .inl ?_, .inl ⟨herr s', herr s⟩⟩
  rw [eq_of_regsRead_synCycle hcfg hread, synCycle_withUnread]
  revert r
  simp [regsWritten, SameReg]

/-- R41's column r: what a command writes, and whether it raises IDX, is the same from every state that agrees on the
configuration and on the registers that the command is listed as reading. -/
theorem exec_writesAlike (i : Instr) {t : State} (h : exec i s = .next t) (hcfg : s'.cfg = s.cfg)
    (hread : ∀ r ∈ regsRead i, SameReg r s' s) :
    ∃ t', exec i s' = .next t' ∧ WritesAlike (regsWritten i) s t s' t' := by
  cases i with
  | bwNew | bwSetraw => cases h; exact ⟨_, rfl, writesAlike_setBw hcfg (hread .din (.head _))⟩
  | bwClear => cases h; exact ⟨_, rfl, writesAlike_setBw hcfg rfl⟩
  | bwLdrx => cases h; exact ⟨_, rfl, writesAlike_setBw hcfg (congrArg _ (hread .rxValue (.head _)))⟩
  | bwGet idx => exact execBwGet_writesAlike h hcfg (hread .bw (.head _))
  | bwSet idx val => exact execBwSet_writesAlike h hcfg (hread .bw (.head _))
  | bwGetraw => cases h; exact ⟨_, rfl, writesAlike_setDout (bwValue_congr hcfg (hread .bw (.head _)))⟩
  | cdEnc =>
    cases h
    have hdin : s'.din = s.din := hread .din (.head _)
    exact ⟨_, rfl, writesAlike_setDout (by rw [dinPayload, hdin, dinPayload])⟩
  | cdDec =>
    cases h
    have hdin : s'.din = s.din := hread .din (.head _)
    exact ⟨_, rfl, writesAlike_setDout (by rw [hdin])⟩
  | frRxb b => exact execFrRxb_writesAlike h (hread .frBuf (.head _)) (hread .frFill (.tail _ (.head _)))
  | frRdval => cases h; exact ⟨_, rfl, writesAlike_setDout (congrArg _ (hread .rxValue (.head _)))⟩
  | frStat =>
    cases h
    have hbuf : s'.frBuf = s.frBuf := hread .frBuf (.head _)
    have hfill : s'.frFill = s.frFill := hread .frFill (.tail _ (.head _))
    exact ⟨_, rfl, writesAlike_setDout (by rw [hbuf, hfill])⟩
  | rbClear sel => cases h; exact ⟨_, rfl, clearBuffer_writesAlike sel⟩
  | rbPush sel code =>
    exact execRbPush_writesAlike h hcfg (hread (.len sel) (.head _)) (hread (.slots sel) (.tail _ (.head _)))
  | rbFill sel ix code => exact execRbFill_writesAlike h hcfg (hread (.slots sel) (.head _))
  | rbLen sel =>
    cases h
    exact ⟨_, rfl, writesAlike_setDout (by rw [bufferLen_congr (hread (.len sel) (.head _))])⟩
  | rbRead sel ix => exact execRbRead_writesAlike h hcfg (hread (.slots sel) (.head _))
  | synCycle =>
    obtain ⟨hallowed, rfl⟩ := execSynCycle_cases h
    exact ⟨_, execSynCycle_of_allowed (hcfg ▸ hallowed), synCycle_writesAlike hcfg hread⟩
  | synRead which =>
    have hlayers : s'.layerL = s.layerL ∧ s'.layerR = s.layerR ∧ s'.maskL = s.maskL ∧ s'.maskR = s.maskR := by
      simpa [regsRead, SameReg] using hread
    obtain ⟨hlayerL, hlayerR, hmaskL, hmaskR⟩ := hlayers
    cases which with
    | layerL => cases h; exact ⟨_, rfl, writesAlike_setDout (by rw [hlayerL])⟩
    | layerR => cases h; exact ⟨_, rfl, writesAlike_setDout (by rw [hlayerR])⟩
    | maskL => cases h; exact ⟨_, rfl, writesAlike_setDout (by rw [hmaskL])⟩
    | maskR => cases h; exact ⟨_, rfl, writesAlike_setDout (by rw [hmaskR])⟩
  | statRead => cases h; exact ⟨_, rfl, writesAlike_setDout (congrArg _ (hread .err (.head _)))⟩

end Sys2Proof
end

/-! ### The invariant across every operation (10_state.md R24, R26, R28, R29, R32) -/

section
namespace Sys2Proof
open Sys2Proof.Machine

variable {s : State}

theorem BlockInv.setDin (h : BlockInv s) (v : Data) : BlockInv (s.setDin v) := { h with }

theorem BlockInv.setDout (h : BlockInv s) (v : Data) : BlockInv (s.setDout v) := { h with }

theorem BlockInv.raise (h : BlockInv s) (e : ErrFlag) : BlockInv (raise e s) := { h with }

/-- A write of BW cuts to W bits. -/
theorem BlockInv.setBw (h : BlockInv s) (v : Data) : BlockInv (s.setBw v) :=
  { h with bwFits := lowBits_lowBits _ _ }

theorem BlockInv.setRbP (h : BlockInv s) {b : ReportBuffer 8} (hslots : b.slot.length = s.cfg.capP)
    (hlen : b.len.toNat ≤ s.cfg.capP) : BlockInv (s.setRbP b) :=
  { h with slotsP := hslots, lenP := hlen }

theorem BlockInv.setRbS (h : BlockInv s) {b : ReportBuffer 16} (hslots : b.slot.length = s.cfg.capS)
    (hlen : b.len.toNat ≤ s.cfg.capS) : BlockInv (s.setRbS b) :=
  { h with slotsS := hslots, lenS := hlen }

/-- FR.RXB leaves a fill count of 0, of 1, or one more than a count of at most 3. -/
theorem BlockInv.execFrRxb (h : BlockInv s) {b : Byte} {t : State} (ht : execFrRxb b s = .next t) : BlockInv t := by
  obtain ⟨-, rfl⟩ | ⟨-, -, rfl⟩ | ⟨-, -, h3, rfl⟩ | ⟨-, -, rfl⟩ := execFrRxb_cases ht
  · exact { h with fillLow := by simp }
  · exact h.setDout 0
  · have hadd := frFill_add_one h3
    exact { h with fillLow := by rw [frameContinue_frFill, hadd]; omega }
  · exact { h with fillLow := by simp }

theorem BlockInv.clearBuffer (h : BlockInv s) (sel : Sel) : BlockInv (clearBuffer sel s) := by
  cases sel with
  | primary => exact h.setRbP h.slotsP (Nat.zero_le _)
  | secondary => exact h.setRbS h.slotsS (Nat.zero_le _)

theorem BlockInv.execRbPush (h : BlockInv s) (hvalid : configValid s.cfg = true) {sel : Sel} {code : BitVec 16}
    {t : State} (ht : execRbPush sel code s = .next t) : BlockInv t := by
  obtain ⟨hcapP, hcapS⟩ := caps_of_valid hvalid
  cases sel with
  | primary =>
    cases ht
    exact h.setRbP (by simp [h.slotsP]) (ReportBuffer.push_len_le _ h.lenP hcapP)
  | secondary =>
    cases ht
    exact h.setRbS (by simp [h.slotsS]) (ReportBuffer.push_len_le _ h.lenS hcapS)

theorem BlockInv.execRbFill (h : BlockInv s) {sel : Sel} {ix : BitVec 7} {code : BitVec 16} {t : State}
    (ht : execRbFill sel ix code s = .next t) : BlockInv t := by
  cases sel with
  | primary => cases ht; exact h.setRbP (by simp [h.slotsP]) h.lenP
  | secondary => cases ht; exact h.setRbS (by simp [h.slotsS]) h.lenS

/-! A cycle. -/

theorem leftLayer_low (c : Config) (left : LeftBits) : leftLayer c left = 0 ∨ leftLayer c left = 1 := by
  unfold leftLayer
  split
  · exact .inr rfl
  · exact .inl rfl

theorem firstKeyLayer_lt {n : Nat} (hn : 0 < n) {keys : List FnKey} (hkeys : ∀ k ∈ keys, k.layer.toNat < n)
    (right : RightBits) : (firstKeyLayer keys right).toNat < n := by
  induction keys with
  | nil => exact hn
  | cons k ks ih =>
    obtain ⟨hk, hks⟩ := List.forall_mem_cons.mp hkeys
    unfold firstKeyLayer
    split
    · exact hk
    · exact ih hks

/-- R144: the override selects layer 1, which every right half has (R10), and a function key one below `NL_R`. -/
theorem rightLayer_lt {c : Config} (hvalid : configValid c = true) (ll : Layer) (right : RightBits) :
    (rightLayer c ll right).toNat < c.nlR := by
  obtain ⟨-, -, hkeys, -⟩ := (configValid_iff c).mp hvalid
  obtain ⟨-, ⟨hnl, -⟩, -, hrfk⟩ := (keysValid_iff c).mp hkeys
  unfold rightLayer
  split
  · exact hnl
  · exact firstKeyLayer_lt (by omega) (fun k hk => (hrfk k hk).2) right

theorem pushes_clear_len {w cap : Nat} (hcap : cap ≤ 127) (codes : List (BitVec w)) (b : ReportBuffer w) :
    (ReportBuffer.pushes cap codes b.clear).len.toNat = min codes.length cap := by
  rw [ReportBuffer.pushes_len hcap codes (Nat.zero_le _)]
  simp

/-- A buffer that a cycle rebuilds has its old number of slots. -/
theorem cycleBuffer_slot_length {w : Nat} (cap : Nat) (sentinel : BitVec w) (codes : List (BitVec w)) (prev : BitVec 7)
    (b : ReportBuffer w) :
    (tailFilled cap sentinel prev (ReportBuffer.pushes cap codes b.clear)).slot.length = b.slot.length := by
  simp

theorem cycleBuffer_len_le {w cap : Nat} (hcap : cap ≤ 127) (sentinel : BitVec w) (codes : List (BitVec w))
    (prev : BitVec 7) (b : ReportBuffer w) :
    (tailFilled cap sentinel prev (ReportBuffer.pushes cap codes b.clear)).len.toNat ≤ cap := by
  rw [tailFilled_len, pushes_clear_len hcap]
  exact Nat.min_le_right ..

theorem BlockInv.synCycle (h : BlockInv s) (hvalid : configValid s.cfg = true) : BlockInv (synCycle s) := by
  obtain ⟨hcapP, hcapS⟩ := caps_of_valid hvalid
  rw [synCycle_eq]
  exact { h with
    slotsP := (cycleBuffer_slot_length ..).trans h.slotsP
    lenP := cycleBuffer_len_le hcapP ..
    slotsS := (cycleBuffer_slot_length ..).trans h.slotsS
    lenS := cycleBuffer_len_le hcapS ..
    layerLow := leftLayer_low ..
    layerR := rightLayer_lt hvalid .. }

/-- Every command keeps the invariant under a valid configuration. -/
theorem BlockInv.exec (h : BlockInv s) (hvalid : configValid s.cfg = true) (i : Instr) {t : State}
    (ht : exec i s = .next t) : BlockInv t := by
  cases i with
  | bwNew | bwSetraw | bwClear | bwLdrx => cases ht; exact h.setBw _
  | bwGetraw | cdEnc | cdDec | frRdval | frStat | rbLen | statRead => cases ht; exact h.setDout _
  | bwGet idx =>
    obtain ⟨-, rfl⟩ | ⟨-, rfl⟩ := execBwGet_cases ht
    · exact h.raise _
    · exact h.setDout _
  | bwSet idx val =>
    obtain ⟨-, rfl⟩ | ⟨-, rfl⟩ := execBwSet_cases ht
    · exact h.raise _
    · exact h.setBw _
  | frRxb b => exact h.execFrRxb ht
  | rbClear sel => cases ht; exact h.clearBuffer sel
  | rbPush sel code => exact h.execRbPush hvalid ht
  | rbFill sel ix code => exact h.execRbFill ht
  | rbRead sel ix =>
    obtain ⟨-, rfl⟩ | ⟨-, v, -, rfl⟩ := execRbRead_cases ht
    · exact h.raise _
    · exact h.setDout v
  | synCycle =>
    obtain ⟨-, rfl⟩ := execSynCycle_cases ht
    exact h.synCycle hvalid
  | synRead which => cases which <;> (cases ht; exact h.setDout _)

end Sys2Proof
end

/-! ### The sentinel tail (43_synthesizer.md R151, R153 (f)) -/

section
namespace Sys2Proof
open Sys2Proof.Machine

/-- Every slot of one buffer from its length up to its capacity holds the sentinel. -/
def TailIs {w : Nat} (cap : Nat) (sentinel : BitVec w) (b : ReportBuffer w) : Prop :=
  ∀ i, b.len.toNat ≤ i → i < cap → b.slot[i]? = some sentinel

theorem sentinelTail_iff (s : State) :
    SentinelTail s ↔ TailIs s.cfg.capP s.cfg.sentP s.rbP ∧ TailIs s.cfg.capS s.cfg.sentS s.rbS := Iff.rfl

theorem tailIs_reset {w : Nat} (cap : Nat) (sentinel : BitVec w) :
    TailIs cap sentinel (ReportBuffer.reset cap sentinel) := by
  intro i _ hi
  simp [ReportBuffer.reset, hi]

/-- A cycle keeps the tail: a report that got shorter is filled from its length up, and one that did not get shorter
ends at or above the old length, from where the slots are as before. -/
theorem tailIs_cycleBuffer {w cap : Nat} (hcap : cap ≤ 127) {sentinel : BitVec w} (codes : List (BitVec w))
    {b : ReportBuffer w} (hslots : b.slot.length = cap) (htail : TailIs cap sentinel b) :
    TailIs cap sentinel (tailFilled cap sentinel b.len (ReportBuffer.pushes cap codes b.clear)) := by
  have hlen := pushes_clear_len hcap codes b
  intro i hle hi
  rw [tailFilled_len, hlen] at hle
  rw [tailFilled_slot _ _ (by simp [hslots]), hlen]
  split
  next => rfl
  next hnot =>
    have hold : b.len.toNat ≤ i := by omega
    have hslot := ReportBuffer.pushes_slot hcap codes (b := b.clear) (Nat.zero_le _) hslots i
    rw [hslot, if_neg (by simp; omega)]
    exact htail i hold hi

theorem SentinelTail.synCycle {s : State} (h : SentinelTail s) (hinv : BlockInv s) (hvalid : configValid s.cfg = true) :
    SentinelTail (synCycle s) := by
  obtain ⟨hcapP, hcapS⟩ := caps_of_valid hvalid
  obtain ⟨htailP, htailS⟩ := (sentinelTail_iff s).mp h
  rw [synCycle_eq]
  exact ⟨tailIs_cycleBuffer hcapP _ hinv.slotsP htailP, tailIs_cycleBuffer hcapS _ hinv.slotsS htailS⟩

/-- The tail is a matter of the two buffers and the configuration. -/
theorem SentinelTail.of_buffers_eq {s t : State} (h : SentinelTail s) (hcfg : t.cfg = s.cfg) (hP : t.rbP = s.rbP)
    (hS : t.rbS = s.rbS) : SentinelTail t := by
  rw [sentinelTail_iff, hcfg, hP, hS]
  exact h

end Sys2Proof
end

/-! ### The flag of a completed frame, and where the model stops (log entry 7) -/

section
namespace Sys2Proof
open Sys2Proof.Machine

/-- Bit 32 of an emitted value says that a frame completed (R116). -/
theorem getLsbD_emittedData_32 (v : Payload) : (emittedData v).getLsbD 32 = true := by
  rw [emittedData, BitVec.getLsbD_setWidth, BitVec.getLsbD_append]
  rfl

theorem execRbRead_absent {sel : Sel} {ix : BitVec 7} {s : State} (hix : ix.toNat < capOf s.cfg sel)
    (hslot : slotData s sel ix.toNat = none) : execRbRead sel ix s = .fault .absentElement := by
  unfold execRbRead
  rw [if_neg (by omega), hslot]

/-- In a state of the invariant no command faults: every one completes, but for a cycle that R10 does not allow. -/
theorem exec_ne_fault (i : Instr) {s : State} (hinv : BlockInv s) (r : Fault) : exec i s ≠ .fault r := by
  by_cases hrefused : i = .synCycle ∧ ¬ cycleAllowed s.cfg = true
  · obtain ⟨rfl, hnot⟩ := hrefused
    change execSynCycle s ≠ _
    rw [execSynCycle_of_not_allowed hnot]
    nofun
  · obtain ⟨t, ht⟩ := exec_completes i hinv fun hi => by_contra fun hnot => hrefused ⟨hi, hnot⟩
    rw [ht]
    nofun

end Sys2Proof
end

/-! ### Settled: the state, its invariant and the step -/

section
namespace Sys2Proof
open Sys2Proof.Machine

/-- Settles O45: SYN.CYCLE fills the tail of a shorter report, and no other command than the three excepted changes a
buffer. -/
theorem sentinelTailKept : Obligations.SentinelTailKept := by
  refine ⟨fun c => ⟨tailIs_reset _ _, tailIs_reset _ _⟩, fun i s t hclear hpush hfill hinv htail h => ?_⟩
  by_cases hcycle : i = .synCycle
  · subst hcycle
    obtain ⟨hallowed, rfl⟩ := execSynCycle_cases h
    exact htail.synCycle hinv ((cycleAllowed_iff s.cfg).mp hallowed).1
  · have hkeeps : ∀ sel, ¬ ChangesBuffer sel i := by
      rintro sel (hc | ⟨c, hc⟩ | ⟨f, c, hc⟩ | hc)
      · exact hclear sel hc
      · exact hpush sel c hc
      · exact hfill sel f c hc
      · exact hcycle hc
    exact htail.of_buffers_eq (exec_writesOnly i h).cfg (exec_rbP_eq h (hkeeps _)) (exec_rbS_eq h (hkeeps _))

/-- Settles O57, by the cases of a step: the host's write and an error touch nothing of the invariant, and every command
keeps it. -/
theorem stepKeepsInvariant : Obligations.StepKeepsInvariant := by
  intro s t hinv h
  obtain ⟨hvalid, ⟨-, rfl⟩ | ⟨v, rest, -, rfl⟩ | ⟨w, rest, -, ⟨e, -, rfl⟩ | ⟨i, -, hexec⟩⟩⟩ := step_cases h
  · exact hinv
  · exact (hinv.setHost rest).setDin v
  · exact (hinv.setHost rest).raise _
  · exact (hinv.setHost rest).exec hvalid i hexec

/-- Settles O29: only FR.RXB is listed as writing RX_VALUE, and of its four cases only the fifth byte changes it. -/
theorem rxValueOnlyOnCompletion : Obligations.RxValueOnlyOnCompletion := by
  intro i s t h hne
  have hwritten : .rxValue ∈ regsWritten i := by
    by_contra hnot
    exact hne ((exec_writesOnly i h).same _ hnot nofun)
  obtain ⟨b, rfl⟩ := rxValue_written hwritten
  obtain ⟨-, rfl⟩ | ⟨-, -, rfl⟩ | ⟨-, -, -, rfl⟩ | ⟨hb, hfill, rfl⟩ := execFrRxb_cases h
  · exact absurd rfl hne
  · exact absurd rfl hne
  · exact absurd rfl hne
  · exact ⟨b, rfl, hb, BitVec.eq_of_toNat_eq hfill, rfl, getLsbD_emittedData_32 _⟩

/-- Settles O35: the two stops, and their absence under the invariant. -/
theorem absentElementsStop : Obligations.AbsentElementsStop := by
  refine ⟨fun b s hb hfill => execFrRxb_absent hb hfill, fun s ix hix hslot => ?_, fun s ix hix hslot => ?_,
    fun i s r hinv => exec_ne_fault i hinv r⟩
  · exact execRbRead_absent (sel := .primary) hix (by simp only [slotData, hslot, Option.map_none])
  · exact execRbRead_absent (sel := .secondary) hix (by simp only [slotData, hslot, Option.map_none])

/-- Settles O37, from the columns RB_P and RB_S of R41's table. -/
theorem buffersChangeOnlyByNamedCommands : Obligations.BuffersChangeOnlyByNamedCommands := by
  intro i s t h
  refine ⟨?_, ?_⟩
  · by_cases hi : ChangesBuffer .primary i
    · exact .inr hi
    · exact .inl (exec_rbP_eq h hi)
  · by_cases hi : ChangesBuffer .secondary i
    · exact .inr hi
    · exact .inl (exec_rbS_eq h hi)

/-- Settles O53: the columns w and r of R41's table. -/
theorem accessTableHolds : Obligations.AccessTableHolds := by
  intro i s t h
  obtain ⟨hcfg, hhost, hsame⟩ := exec_writesOnly i h
  exact ⟨hcfg, hhost, hsame, fun s' hcfg' hread => exec_writesAlike i h hcfg' hread⟩

/-- Settles O6: a command step is `issue` of its word, and `issue` of a legal word is `exec` of what it decodes to. -/
theorem stepRunsDecodedCommand : Obligations.StepRunsDecodedCommand := by
  refine ⟨fun s w rest i hvalid hhost hd => ?_, fun s w rest e hvalid hhost _ => step_of_command hvalid hhost⟩
  rw [step_of_command hvalid hhost, issue_of_legal _ hd]
  rfl

/-- Settles O8: the host's write, and the column DIN of R41's table, which has no w. -/
theorem onlyTheHostWritesDin : Obligations.OnlyTheHostWritesDin :=
  ⟨fun _ _ _ hvalid hhost => step_of_writeDin hvalid hhost,
    fun i _ _ h => (exec_writesOnly i h).same .din (din_not_written i) nofun⟩

/-- Settles O10, by the cases of a step. -/
theorem configurationNeverChanges : Obligations.ConfigurationNeverChanges := by
  intro s t h
  obtain ⟨-, ⟨-, rfl⟩ | ⟨v, rest, -, rfl⟩ | ⟨w, rest, -, ⟨e, -, rfl⟩ | ⟨i, -, hexec⟩⟩⟩ := step_cases h
  · rfl
  · rfl
  · rfl
  · exact (exec_writesOnly i hexec).cfg

/-- Settles O55: the row of R45 for each field. -/
theorem resetValues : Obligations.ResetValues := by
  intro c
  refine ⟨rfl, rfl, rfl, fun i hi => ?frBuf, rfl, rfl, rfl, rfl, List.length_replicate, List.length_replicate,
    fun i => tailIs_reset _ _ i (Nat.zero_le i), fun i => tailIs_reset _ _ i (Nat.zero_le i), rfl, rfl,
    fun _ _ => BitVec.getLsbD_zero, fun _ _ => BitVec.getLsbD_zero, rfl, rfl⟩
  case frBuf => exact Vector.getElem_replicate hi

end Sys2Proof
end

/-! ### Issuing a command a second time (20_memory.md R59) -/

section
namespace Sys2Proof
open Sys2Proof.Machine

variable {s t : State}

theorem eq_of_sameReg (hcfg : t.cfg = s.cfg) (hhost : t.host = s.host) (h : ∀ r, SameReg r t s) : t = s := by
  have hP : t.rbP = s.rbP := ReportBuffer.eq_of_len_of_slot (h (.len .primary)) (h (.slots .primary))
  have hS : t.rbS = s.rbS := ReportBuffer.eq_of_len_of_slot (h (.len .secondary)) (h (.slots .secondary))
  have hdin : t.din = s.din := h .din
  have hdout : t.dout = s.dout := h .dout
  have hbw : t.bw = s.bw := h .bw
  have hfrBuf : t.frBuf = s.frBuf := h .frBuf
  have hfrFill : t.frFill = s.frFill := h .frFill
  have hrxValue : t.rxValue = s.rxValue := h .rxValue
  have hlayerL : t.layerL = s.layerL := h .layerL
  have hlayerR : t.layerR = s.layerR := h .layerR
  have hmaskL : t.maskL = s.maskL := h .maskL
  have hmaskR : t.maskR = s.maskR := h .maskR
  have herr : t.err = s.err := h .err
  cases s
  cases t
  congr

theorem WritesOnly.eq_of_dout (h : WritesOnly [.dout] s t) : t = { s with dout := t.dout, err := t.err } := by
  refine eq_of_sameReg h.cfg h.host fun r => ?_
  have hsame := h.same r
  cases r with
  | dout | err => rfl
  | len sel | slots sel => cases sel <;> exact hsame (by simp) nofun
  | _ => exact hsame (by simp) nofun

theorem err_read {i : Instr} (h : .err ∈ regsRead i) : i = .statRead := by
  cases i <;> simp [regsRead] at h ⊢

/-- A command that R41 does not list as writing what it reads leaves its operands as they were. -/
theorem exec_keeps_operands {i : Instr} (h : exec i s = .next t) (hdisjoint : ∀ r ∈ regsRead i, r ∉ regsWritten i) :
    ∀ r ∈ regsRead i, SameReg r t s := by
  intro r hr
  by_cases herr : r = .err
  · subst herr
    obtain rfl := err_read hr
    cases h
    rfl
  · exact (exec_writesOnly i h).same r (hdisjoint r hr) herr

/-- A command whose operands are as before, issued again, writes the values that it wrote before. -/
theorem exec_again {i : Instr} (h : exec i s = .next t) (hread : ∀ r ∈ regsRead i, SameReg r t s) :
    exec i t = .next t := by
  obtain ⟨u, hu, hwritten, herr⟩ := exec_writesAlike i h (exec_writesOnly i h).cfg hread
  have hkept := exec_writesOnly i hu
  have hsame : u = t := by
    refine eq_of_sameReg hkept.cfg hkept.host fun r => ?_
    by_cases hr : r ∈ regsWritten i
    · exact (hwritten r hr).elim id And.left
    · by_cases he : r = .err
      · subst he
        obtain ⟨hut, -⟩ | ⟨hut, hts⟩ := herr
        · exact hut
        · have hbit : s.err ||| 2 ||| 2 = s.err ||| 2 := by rw [BitVec.or_assoc, BitVec.or_self]
          exact hut.trans (hts ▸ hbit)
      · exact hkept.same r hr he
  rw [hu, hsame]

theorem exec_again_of_disjoint {i : Instr} (hdisjoint : ∀ r ∈ regsRead i, r ∉ regsWritten i)
    (h : exec i s = .next t) : exec i t = .next t :=
  exec_again h (exec_keeps_operands h hdisjoint)

end Sys2Proof
end

/-! ### The two commands that write what they read and may still be repeated: BW.SET and RB.FILL -/

section
namespace Sys2Proof.Machine

theorem raise_raise (e : ErrFlag) (s : State) : raise e (raise e s) = raise e s := by
  have herr : setErrFlag (setErrFlag s.err e) e = setErrFlag s.err e := by
    rw [setErrFlag, setErrFlag, BitVec.or_assoc, BitVec.or_self]
  exact congrArg s.setErr herr

theorem bwValue_setBw (s : State) (v : Data) : bwValue (s.setBw v) = lowBits s.cfg.bwW v :=
  lowBits_lowBits _ _

/-- BW.SET's value written twice: the cut to W bits between the writes takes away nothing that the last cut keeps. -/
theorem lowBits_withBit_again (n : Nat) (v : Data) (idx : Nat) (val : Bool) :
    lowBits n (withBit (lowBits n (withBit v idx val)) idx val) = lowBits n (withBit v idx val) := by
  apply BitVec.eq_of_getLsbD_eq
  intro j hj
  rw [getLsbD_lowBits, getLsbD_lowBits, getLsbD_withBit _ _ _ _ hj, getLsbD_lowBits, getLsbD_withBit _ _ _ _ hj]
  by_cases hidx : j = idx
  · simp [hidx]
  · simp [hidx]

theorem execBwSet_again {idx : BitVec 6} {val : Bool} {s t : State} (h : execBwSet idx val s = .next t) :
    execBwSet idx val t = .next t := by
  obtain ⟨hidx, rfl⟩ | ⟨hidx, rfl⟩ := execBwSet_cases h
  · have hagain : execBwSet idx val (raise .idx s) = .next (raise .idx (raise .idx s)) := if_pos hidx
    rw [hagain, raise_raise]
  · have hagain : execBwSet idx val (s.setBw (withBit (bwValue s) idx.toNat val)) =
        .next (s.setBw (withBit (bwValue (s.setBw (withBit (bwValue s) idx.toNat val))) idx.toNat val)) :=
      if_neg (Nat.not_le.mpr hidx)
    rw [hagain, bwValue_setBw, State.setBw, lowBits_withBit_again, ← State.setBw]

theorem ReportBuffer.fill_fill {w : Nat} (cap : Nat) (c : BitVec w) (f : Nat) (b : ReportBuffer w) :
    (b.fill cap c f).fill cap c f = b.fill cap c f := by
  refine ReportBuffer.eq_of_len_of_slot rfl (List.ext_getElem? fun i => ?_)
  simp only [ReportBuffer.fill, ReportBuffer.foldl_set_slot, ReportBuffer.foldl_set_length]
  split <;> rfl

theorem execRbFill_again {sel : Sel} {ix : BitVec 7} {code : BitVec 16} {s t : State}
    (h : execRbFill sel ix code s = .next t) : execRbFill sel ix code t = .next t := by
  cases sel with
  | primary =>
    cases h
    exact congrArg (fun b => (.next (s.setRbP b) : Result)) (s.rbP.fill_fill s.cfg.capP (primaryCode code) ix.toNat)
  | secondary =>
    cases h
    exact congrArg (fun b => (.next (s.setRbS b) : Result)) (s.rbS.fill_fill s.cfg.capS code ix.toNat)

end Sys2Proof.Machine
end

/-! ### Commands whose repeat differs -/

section
namespace Sys2Proof
open Sys2Proof.Machine

/-- The framer after the first byte of a frame, all else as after reset. -/
def oneByteReceived : State := State.reset.setFrFill 1

theorem blockInv_oneByteReceived : BlockInv oneByteReceived :=
  { blockInv_resetWith configValid_tc with fillLow := by decide }

/-- Vector SYN-03 in its left layer 1: the left matrix in DIN, the blocked left positions, all else as after reset. -/
def onLayerOne (left : Data) (blocked : LeftBits) : State :=
  { State.reset with din := left, layerL := 1, layerR := 1, maskL := blocked }

/-- SYN-03, cycle 2: with the left function key (position 0) the layer changes and both pressed positions are blocked. -/
theorem synCycle_functionKey : synCycle (State.reset.setDin 0b1001) = onLayerOne 0b1001 0b1001 := by decide

/-- SYN-03, cycle 3: position 3 is released and no longer blocked. -/
theorem synCycle_release : synCycle (onLayerOne 1 0b1001) = onLayerOne 1 1 := by decide

/-- SYN-03, cycle 4: position 3, pressed again, is reported. -/
theorem synCycle_pressAgain : (synCycle (onLayerOne 0b1001 1)).rbP.len = 1 := by decide

/-- R59: a byte of a frame received twice counts twice. -/
theorem frRxb_not_idempotent : ∃ (b : Byte) (s t u : State), BlockInv s ∧
    exec (.frRxb b) s = .next t ∧ exec (.frRxb b) t = .next u ∧ u.frFill ≠ t.frFill :=
  ⟨0, oneByteReceived, frameContinue 0 oneByteReceived, _, blockInv_oneByteReceived,
    execFrRxb_continue rfl (by decide) (by decide), execFrRxb_continue rfl (by decide) (by decide), by decide⟩

/-- R59: a code pushed twice is appended twice. -/
theorem rbPush_not_idempotent : ∃ (sel : Sel) (code : BitVec 16) (s t u : State), BlockInv s ∧
    exec (.rbPush sel code) s = .next t ∧ exec (.rbPush sel code) t = .next u ∧ bufferLen u sel ≠ bufferLen t sel :=
  ⟨.primary, 0, State.reset, _, _, blockInv_resetWith configValid_tc, rfl, rfl, by decide⟩

/-- R59, log entry 9: a cycle repeated after another cycle reports another length. -/
theorem synCycle_repeat_differs : ∃ (other : Data) (s t u v : State), BlockInv s ∧ exec .synCycle s = .next t ∧
    exec .synCycle (hostWriteDin other t) = .next u ∧ exec .synCycle (hostWriteDin s.din u) = .next v ∧
    v.bw = s.bw ∧ v.rbP.len ≠ t.rbP.len := by
  have hcycle : ∀ s : State, s.cfg = Config.tc → exec .synCycle s = .next (synCycle s) := fun s hs =>
    execSynCycle_of_allowed (hs ▸ (cycleAllowed_iff _).mpr ⟨configValid_tc, by decide⟩)
  refine ⟨1, State.reset.setDin 0b1001, onLayerOne 0b1001 0b1001, onLayerOne 1 1, synCycle (onLayerOne 0b1001 1),
    (blockInv_resetWith configValid_tc).setDin _, ?held, ?released, hcycle _ rfl, ?bw, ?len⟩
  case held => rw [← synCycle_functionKey]; exact hcycle _ rfl
  case released => rw [← synCycle_release]; exact hcycle _ rfl
  case bw => rw [synCycle_eq]; rfl
  case len => rw [synCycle_pressAgain]; decide

end Sys2Proof
end

/-! ### Settled: observing, idempotent and not idempotent commands -/

section
namespace Sys2Proof
open Sys2Proof.Machine

/-- The observing commands of R59 write DOUT alone, and no command reads DOUT. -/
theorem observers_write_dout (idx : BitVec 6) (sel : Sel) (ix : BitVec 7) (which : Which) :
    ∀ i ∈ [.bwGet idx, .bwGetraw, .cdEnc, .cdDec, .frRdval, .frStat, .rbLen sel, .rbRead sel ix, .synRead which,
      .statRead], regsWritten i = [.dout] := by
  simp [regsWritten]

theorem dout_not_read (i : Instr) : .dout ∉ regsRead i := by
  cases i <;> simp [regsRead]

/-- Of the idempotent commands of R59 only BW.SET and RB.FILL write a register that they read. -/
theorem idempotent_operands (idx : BitVec 6) (v : Bool) (sel : Sel) (ix : BitVec 7) (code : BitVec 16) :
    ∀ i ∈ [.bwNew, .bwSet idx v, .bwSetraw, .bwClear, .bwLdrx, .rbClear sel, .rbFill sel ix code],
      (∀ r ∈ regsRead i, r ∉ regsWritten i) ∨ i = .bwSet idx v ∨ i = .rbFill sel ix code := by
  simp [regsRead, regsWritten]

/-- Settles O54: the observers and all idempotent commands but two write no register that they read, so a repeat finds
the same operands; BW.SET and RB.FILL write over what they wrote; the rest are three runs. -/
theorem observersAndIdempotentCommands : Obligations.ObserversAndIdempotentCommands := by
  refine ⟨fun idx sel ix which i hi s t h => ?observe, fun idx v sel ix code i hi s t h => ?idempotent,
    frRxb_not_idempotent, rbPush_not_idempotent, synCycle_repeat_differs⟩
  case observe =>
    have hdout := observers_write_dout idx sel ix which i hi
    have hwrites : WritesOnly [.dout] s t := hdout ▸ exec_writesOnly i h
    refine ⟨hwrites.eq_of_dout, t, exec_again_of_disjoint (fun r hr hw => ?_) h, rfl⟩
    rw [hdout, List.mem_singleton] at hw
    exact dout_not_read i (hw ▸ hr)
  case idempotent =>
    obtain hdisjoint | rfl | rfl := idempotent_operands idx v sel ix code i hi
    · exact exec_again_of_disjoint hdisjoint h
    · exact execBwSet_again h
    · exact execRbFill_again h

end Sys2Proof
end

/-! ### The opcode table: which row a word hits, and decoding through it (30_encoding.md R79, R82) -/

section
namespace Sys2Proof

/-- UNIT and OP of a word, the two fields in which the rows of R79 differ (R70, R82). -/
def opcode (w : CmdWord) : Nat × Nat := (unitField w, opField w)

theorem opcode_eq_iff (w v : CmdWord) : opcode w = opcode v ↔ unitField w = unitField v ∧ opField w = opField v :=
  Prod.mk_inj

/-- The reserved bits of the format of an opcode's command, as position and width (R72 to R77): none for RB.FILL, all of
ARG for format N. -/
def reservedRange : Nat × Nat → Nat × Nat
  | (0x0, 0x1) => (6, 18)
  | (0x0, 0x2) => (7, 17)
  | (0x2, 0x0) => (8, 16)
  | (0x3, 0x0) => (0, 23)
  | (0x3, 0x1) => (16, 7)
  | (0x3, 0x2) => (0, 0)
  | (0x3, 0x3) => (0, 23)
  | (0x3, 0x4) => (0, 16)
  | (0x4, 0x1) => (2, 22)
  | _ => (0, 24)

/-- A word has only 0s in a range of bits, given as position and width. -/
def RangeClear (w : CmdWord) (range : Nat × Nat) : Prop := w.extractLsb' range.1 range.2 = 0

theorem rangeClear_mk (w : CmdWord) (a n : Nat) : RangeClear w (a, n) ↔ w.extractLsb' a n = 0 := Iff.rfl

/-- A word has only 0s in the reserved bits of the format that its opcode selects. -/
def ReservedClear (w : CmdWord) : Prop := RangeClear w (reservedRange (opcode w))

theorem hits_iff (r : Row) (w : CmdWord) : r.hits w = true ↔ w &&& r.mask = r.pattern ∧ r.extra w = true := by
  simp [Row.hits]

/-- The mask of each row covers UNIT, OP and the reserved bits of its format, and its match has 0 in the latter. -/
theorem mask_covers_opcode_and_reserved : ∀ r ∈ opcodeTable,
    (∀ j, j < 32 → r.mask.getLsbD j = [(28, 4), (24, 4), reservedRange (opcode r.pattern)].any
      fun range => decide (range.1 ≤ j) && decide (j < range.1 + range.2)) ∧
    r.pattern &&& r.mask = r.pattern ∧
    (reservedRange (opcode r.pattern)).1 + (reservedRange (opcode r.pattern)).2 ≤ 32 ∧ ReservedClear r.pattern := by
  simp only [opcodeTable, bwRows, wireRows, rbRows, synRows, ReservedClear, RangeClear]
  decide

/-- A row said in fields: its UNIT and OP, 0 in the reserved bits of its format, and its extra condition. -/
theorem hits_iff_fields {r : Row} (hr : r ∈ opcodeTable) (w : CmdWord) :
    r.hits w = true ↔ opcode w = opcode r.pattern ∧ ReservedClear w ∧ r.extra w = true := by
  obtain ⟨hcover, hpattern, hle, hclear⟩ := mask_covers_opcode_and_reserved r hr
  have hmatch := reserved_range_iff _ _ (reservedRange (opcode r.pattern)).1 (reservedRange (opcode r.pattern)).2
    hcover hpattern hle hclear w
  rw [← and_assoc, ← opcode_eq_iff] at hmatch
  rw [hits_iff, hmatch, and_assoc]
  exact and_congr_right fun hop => by rw [ReservedClear, hop, RangeClear]

theorem opcodes_nodup : (opcodeTable.map fun r => opcode r.pattern).Nodup := by
  simp only [opcodeTable, bwRows, wireRows, rbRows, synRows]
  decide

/-- At most one row matches a word, because rows differ in UNIT or OP (R82). -/
theorem row_unique {r q : Row} (hr : r ∈ opcodeTable) (hq : q ∈ opcodeTable) {w : CmdWord} (hrw : r.hits w = true)
    (hqw : q.hits w = true) : r = q :=
  List.inj_on_of_nodup_map opcodes_nodup hr hq
    (((hits_iff_fields hr w).mp hrw).1.symm.trans ((hits_iff_fields hq w).mp hqw).1)

theorem decode_of_hits {r : Row} (hr : r ∈ opcodeTable) {w : CmdWord} (hw : r.hits w = true) :
    decode w = .ok (r.read w) := by
  unfold decode
  cases hf : opcodeTable.find? (·.hits w) with
  | none => simpa [hw] using List.find?_eq_none.mp hf r hr
  | some q => rw [row_unique (List.mem_of_find?_eq_some hf) hr (List.find?_some hf :) hw]

/-- A word that decodes hits a row, which reads the command from it. -/
theorem row_of_decode {w : CmdWord} {i : Instr} (h : decode w = .ok i) :
    ∃ r ∈ opcodeTable, r.hits w = true ∧ r.read w = i := by
  unfold decode at h
  cases hf : opcodeTable.find? (·.hits w) with
  | none => simp [hf] at h
  | some r => exact ⟨r, List.mem_of_find?_eq_some hf, (List.find?_some hf :), by simpa [hf] using h⟩

end Sys2Proof
end

/-! ### Encoding what a row reads: the row's match with the operand bits of the word (30_encoding.md R79, R84) -/

section
namespace Sys2Proof

/-- A field put back in its place is the word cut to the field's bits. -/
theorem extract_shiftLeft_eq_and (w m : CmdWord) (k n : Nat)
    (hm : ∀ j, j < 32 → m.getLsbD j = (decide (k ≤ j) && decide (j < k + n))) :
    (w.extractLsb' k n).setWidth 32 <<< k = w &&& m := by
  apply BitVec.eq_of_getLsbD_eq
  intro j hj
  rw [bit_of_field, BitVec.getLsbD_and, hm j hj, BitVec.getLsbD_extractLsb']
  by_cases hk : k ≤ j
  · rw [Nat.add_sub_of_le hk]
    simp [hj, hk, Bool.and_comm, Nat.sub_lt_iff_lt_add hk, Nat.add_comm n]
  · simp [hk]

theorem idxField_setWidth (w : CmdWord) : (idxField w).setWidth 32 = w &&& 0x3F := by
  simpa [idxField] using extract_shiftLeft_eq_and w 0x3F 0 6 (by decide)

theorem byteField_setWidth (w : CmdWord) : (byteField w).setWidth 32 = w &&& 0xFF := by
  simpa [byteField] using extract_shiftLeft_eq_and w 0xFF 0 8 (by decide)

theorem codeField_setWidth (w : CmdWord) : (codeField w).setWidth 32 = w &&& 0xFFFF := by
  simpa [codeField] using extract_shiftLeft_eq_and w 0xFFFF 0 16 (by decide)

theorem ixField_shiftLeft (w : CmdWord) : (ixField w).setWidth 32 <<< 16 = w &&& 0x7F0000 :=
  extract_shiftLeft_eq_and w 0x7F0000 16 7 (by decide)

theorem valField_shiftLeft (w : CmdWord) : (BitVec.ofBool (valField w)).setWidth 32 <<< 6 = w &&& 0x40 := by
  rw [show (0x40 : CmdWord) = BitVec.twoPow 32 6 from rfl, BitVec.and_twoPow, valField]
  cases w.getLsbD 6 <;> rfl

theorem selBits_selField (w : CmdWord) : selBits (selField w) = w &&& 0x00800000 := by
  rw [show (0x00800000 : CmdWord) = BitVec.twoPow 32 23 from rfl, BitVec.and_twoPow, selField]
  cases w.getLsbD 23 <;> rfl

theorem whichBits_whichField (w : CmdWord) : whichBits (whichField w) = w &&& 3 := by
  rw [show (3 : CmdWord) = BitVec.twoPow 32 1 ||| BitVec.twoPow 32 0 from rfl, BitVec.and_or_distrib_left,
    BitVec.and_twoPow, BitVec.and_twoPow, whichField]
  cases w.getLsbD 1 <;> cases w.getLsbD 0 <;> rfl

/-- The command that a row reads from a word encodes to the row's match with the bits of the word that the row's mask
leaves free. -/
theorem encode_read : ∀ r ∈ opcodeTable, ∀ w, encode (r.read w) = r.pattern ||| (w &&& ~~~r.mask) := by
  simp only [opcodeTable, List.forall_mem_append]
  refine ⟨⟨⟨?bw, ?wire⟩, ?rb⟩, ?syn⟩
  case bw =>
    simp [bwRows, encode, idxField_setWidth, valField_shiftLeft, BitVec.or_assoc, ← BitVec.and_or_distrib_left]
  case wire => simp [wireRows, encode, byteField_setWidth]
  case rb =>
    simp [rbRows, encode, selBits_selField, ixField_shiftLeft, codeField_setWidth, BitVec.or_assoc,
      ← BitVec.and_or_distrib_left]
  case syn => simp [synRows, encode, whichBits_whichField]

/-- What a row reads from a word that hits it encodes to that word: the bits that the row fixes and those it leaves free
make up the word. -/
theorem encode_read_of_hits {r : Row} (hr : r ∈ opcodeTable) {w : CmdWord} (hw : r.hits w = true) :
    encode (r.read w) = w := by
  obtain ⟨hmatch, -⟩ := (hits_iff r w).mp hw
  calc encode (r.read w) = r.pattern ||| (w &&& ~~~r.mask) := encode_read r hr w
    _ = w &&& (r.mask ||| ~~~r.mask) := by rw [← hmatch, BitVec.and_or_distrib_left]
    _ = w := by rw [BitVec.or_not_self, BitVec.and_allOnes]

/-- The condition on the code that a command carries is the row's condition on the word (R76, R79, R81). -/
theorem codeFits_fields (w : CmdWord) : codeFits (selField w) (codeField w) = codeCondition w := by
  have hhigh : (codeField w).extractLsb' 8 8 = w.extractLsb' 8 8 := by
    apply BitVec.eq_of_getLsbD_eq
    intro j hj
    simp [codeField, hj]
  unfold codeCondition selField
  cases w.getLsbD 23
  · simp [codeFits, hhigh]
  · rfl

/-- What a row reads from a word is well formed exactly when the word meets the row's extra condition. -/
theorem wellFormed_read : ∀ r ∈ opcodeTable, ∀ w, (r.read w).wellFormed = r.extra w := by
  simp [opcodeTable, bwRows, wireRows, rbRows, synRows, Instr.wellFormed, noExtra, codeFits_fields]

end Sys2Proof
end

/-! ### Illegal words (30_encoding.md R80) -/

section
namespace Sys2Proof

theorem unitField_lt (w : CmdWord) : unitField w < 16 := (w.extractLsb' 28 4).isLt

/-- A reserved UNIT, or an OP that its unit does not assign, unit by unit (R71, R80), before the rest `P` of a list. -/
theorem unassigned_or_iff {u : Nat} (hu : u < 16) (o : Nat) (P : Prop) : assignedOps u ≤ o ∨ P ↔
    (0x5 ≤ u ∧ u ≤ 0xE) ∨ (u = 0x0 ∧ 0x7 ≤ o) ∨ (u = 0x1 ∧ 0x2 ≤ o) ∨ (u = 0x2 ∧ 0x3 ≤ o) ∨ (u = 0x3 ∧ 0x5 ≤ o) ∨
      (u = 0x4 ∧ 0x2 ≤ o) ∨ (u = 0xF ∧ 0x1 ≤ o) ∨ P := by
  interval_cases u <;> simp [assignedOps]

/-- The table has a row for every assigned OP of every unit. -/
theorem row_of_assigned : ∀ u < 16, ∀ o < assignedOps u, ∃ r ∈ opcodeTable, opcode r.pattern = (u, o) := by
  simp only [opcodeTable, bwRows, wireRows, rbRows, synRows]
  decide

/-- The table has a row for no unassigned OP. -/
theorem assigned_of_row : ∀ r ∈ opcodeTable, opField r.pattern < assignedOps (unitField r.pattern) := by
  simp only [opcodeTable, bwRows, wireRows, rbRows, synRows]
  decide

/-- A word with the UNIT and OP of a row is illegal exactly when that row does not match it. -/
theorem decode_error_iff_of_opcode {r : Row} (hr : r ∈ opcodeTable) {w : CmdWord} (hw : opcode w = opcode r.pattern) :
    (∃ e, decode w = .error e) ↔ ¬ ReservedClear w ∨ r.extra w = false := by
  have hhits : r.hits w = true ↔ ReservedClear w ∧ r.extra w = true := by simp [hits_iff_fields hr, hw]
  have honly : (∃ e, decode w = .error e) ↔ ¬ r.hits w = true := by
    by_cases h : r.hits w = true
    · simp [decode_of_hits hr h, h]
    · refine iff_of_true ((decode_error_iff w).mpr fun q hq => Bool.eq_false_iff.mpr fun hqw => h ?_) h
      have hop := hw.symm.trans ((hits_iff_fields hq w).mp hqw).1
      rwa [List.inj_on_of_nodup_map opcodes_nodup hr hq hop]
  rw [honly, hhits, not_and_or, Bool.not_eq_true]

/-- A word whose UNIT is reserved or whose OP is unassigned hits no row. -/
theorem decode_error_of_unassigned {w : CmdWord} (h : assignedOps (unitField w) ≤ opField w) :
    ∃ e, decode w = .error e := by
  refine (decode_error_iff w).mpr fun r hr => Bool.eq_false_iff.mpr fun hw => ?_
  obtain ⟨hu, ho⟩ := (opcode_eq_iff ..).mp ((hits_iff_fields hr w).mp hw).1
  rw [hu, ho] at h
  exact (assigned_of_row r hr).not_ge h

/-- Only RB.PUSH and RB.FILL have an extra condition (R79). -/
theorem extra_eq_false_iff : ∀ r ∈ opcodeTable, ∀ w,
    r.extra w = false ↔ opcode r.pattern ∈ [(0x3, 0x1), (0x3, 0x2)] ∧ codeCondition w = false := by
  simp [opcodeTable, bwRows, wireRows, rbRows, synRows, noExtra, opcode, unitField, opField]

/-- R82's procedure for a word whose UNIT and OP are assigned. -/
theorem decode_error_iff_of_assigned {w : CmdWord} (h : opField w < assignedOps (unitField w)) :
    (∃ e, decode w = .error e) ↔
      ¬ ReservedClear w ∨ opcode w ∈ [(0x3, 0x1), (0x3, 0x2)] ∧ codeCondition w = false := by
  obtain ⟨r, hr, hop⟩ : ∃ r ∈ opcodeTable, opcode r.pattern = opcode w := row_of_assigned _ (unitField_lt w) _ h
  rw [decode_error_iff_of_opcode hr hop.symm, extra_eq_false_iff r hr, hop]

end Sys2Proof
end

/-! ### Settled: the encoding -/

section
namespace Sys2Proof
open Sys2Proof.Machine

/-- The family RowHit, for every command. -/
theorem encode_hits_row (i : Instr) : Laws.RowHit.Statement i :=
  match i with
  | .bwNew => Laws.RowHit.bwNew
  | .bwGet idx => Laws.RowHit.bwGet idx
  | .bwSet idx val => Laws.RowHit.bwSet idx val
  | .bwGetraw => Laws.RowHit.bwGetraw
  | .bwSetraw => Laws.RowHit.bwSetraw
  | .bwClear => Laws.RowHit.bwClear
  | .bwLdrx => Laws.RowHit.bwLdrx
  | .cdEnc => Laws.RowHit.cdEnc
  | .cdDec => Laws.RowHit.cdDec
  | .frRxb byte => Laws.RowHit.frRxb byte
  | .frRdval => Laws.RowHit.frRdval
  | .frStat => Laws.RowHit.frStat
  | .rbClear sel => Laws.RowHit.rbClear sel
  | .rbPush sel code => Laws.RowHit.rbPush sel code
  | .rbFill sel ix code => Laws.RowHit.rbFill sel ix code
  | .rbLen sel => Laws.RowHit.rbLen sel
  | .rbRead sel ix => Laws.RowHit.rbRead sel ix
  | .synCycle => Laws.RowHit.synCycle
  | .synRead which => Laws.RowHit.synRead which
  | .statRead => Laws.RowHit.statRead

/-- Settles O2: the command's word hits the row of its mnemonic, and a word that a row hits decodes to what the row
reads. -/
theorem decodeOfEncode : Obligations.DecodeOfEncode := by
  intro i hwf
  obtain ⟨r, hr, -, hhits, hread⟩ := encode_hits_row i hwf
  rw [decode_of_hits hr hhits, hread]

/-- Settles O3: the word hits the row that reads the command from it. -/
theorem encodeOfDecode : Obligations.EncodeOfDecode := by
  intro w i h
  obtain ⟨r, hr, hhits, rfl⟩ := row_of_decode h
  exact ⟨(wellFormed_read r hr w).trans ((hits_iff r w).mp hhits).2, encode_read_of_hits hr hhits⟩

/-- Settles O4: a word hits at most one row; the words with an index are words of commands, well formed at every
index. -/
theorem decodeFollowsOpcodeTable : Obligations.DecodeFollowsOpcodeTable := by
  refine ⟨fun w r hr q hq hrw hqw => congrArg Row.mnemonic (row_unique hr hq hrw hqw),
    fun w r hr hmatch hextra => decode_of_hits hr ((hits_iff r w).mpr ⟨hmatch, hextra⟩),
    fun w hno => (decode_error_iff w).mpr fun r hr => ?_,
    fun idx => ⟨decodeOfEncode (.bwGet idx) rfl, decodeOfEncode (.bwSet idx false) rfl,
      decodeOfEncode (.bwSet idx true) rfl⟩,
    fun ix => ⟨decodeOfEncode (.rbRead .primary ix) rfl, decodeOfEncode (.rbRead .secondary ix) rfl⟩,
    fun w s ⟨e, he⟩ => issue_of_illegal s he⟩
  exact Bool.eq_false_iff.mpr fun hhits => hno r hr ((hits_iff r w).mp hhits)

/-- Settles O5: a word with an unassigned opcode is in the first seven cases of the list; for each assigned one the
list names the reserved bits of its format and, for RB.PUSH and RB.FILL, a wide primary code. -/
theorem illegalWordsAreListed : Obligations.IllegalWordsAreListed := by
  intro w
  have hunit := unitField_lt w
  rw [← unassigned_or_iff hunit]
  obtain h | h := Nat.lt_or_ge (opField w) (assignedOps (unitField w))
  case inr => exact iff_of_true (decode_error_of_unassigned h) (.inl h)
  case inl =>
    rw [decode_error_iff_of_assigned h, or_iff_right h.not_ge]
    unfold ReservedClear opcode codeCondition
    generalize unitField w = u at hunit h ⊢
    generalize opField w = o at h ⊢
    interval_cases u <;> simp only [assignedOps] at h <;> interval_cases o <;> simp [reservedRange, rangeClear_mk]

/-- Settles O1: each word is the encoding of its command. -/
theorem specWordsDecode : Obligations.SpecWordsDecode :=
  ⟨decodeOfEncode (.bwGet 31) rfl, decodeOfEncode (.bwSet 4 true) rfl, decodeOfEncode .cdEnc rfl,
    decodeOfEncode (.frRxb 0xF8) rfl, decodeOfEncode (.rbPush .secondary 0x1234) rfl,
    decodeOfEncode (.rbFill .primary 1 0) rfl, decodeOfEncode (.rbRead .secondary 3) rfl,
    decodeOfEncode (.synRead .maskL) rfl, decodeOfEncode .statRead rfl⟩

end Sys2Proof
end

/-! ### Running commands one after the other (20_memory.md R62) -/

section
namespace Sys2Proof
open Sys2Proof.Machine

theorem runCommands_cons {i : Instr} {s t : State} (h : exec i s = .next t) (rest : List Instr) :
    runCommands (i :: rest) s = runCommands rest t := by
  rw [runCommands, h]

theorem runCommands_append {is : List Instr} {s t : State} (h : runCommands is s = .next t) (rest : List Instr) :
    runCommands (is ++ rest) s = runCommands rest t := by
  induction is generalizing s with
  | nil => cases h; rfl
  | cons i is ih =>
    rw [runCommands] at h
    cases hi : exec i s with
    | next u => rw [hi] at h; rw [List.cons_append, runCommands_cons hi, ih h]
    | fault r => rw [hi] at h; cases h
    | refused r => rw [hi] at h; cases h

theorem runCommands_singleton {i : Instr} {s t : State} (h : exec i s = .next t) : runCommands [i] s = .next t :=
  runCommands_cons h []

theorem runCommands_pair {i j : Instr} {s t u : State} (hi : exec i s = .next t) (hj : exec j t = .next u) :
    runCommands [i, j] s = .next u :=
  (runCommands_cons hi [j]).trans (runCommands_singleton hj)

end Sys2Proof
end

/-! ### What each command of the BW unit does (40_bitword.md R100 to R106) -/

section
namespace Sys2Proof.Machine

variable {s : State}

@[simp] theorem getLsbD_bwValue (s : State) (j : Nat) :
    (bwValue s).getLsbD j = (decide (j < s.cfg.bwW) && s.bw.getLsbD j) :=
  getLsbD_lowBits _ _ j

theorem exec_bwNew (s : State) : exec .bwNew s = .next (s.setBw s.din) := rfl

theorem exec_bwSetraw (s : State) : exec .bwSetraw s = .next (s.setBw s.din) := rfl

theorem exec_bwGetraw (s : State) : exec .bwGetraw s = .next (s.setDout (bwValue s)) := rfl

theorem exec_bwClear (s : State) : exec .bwClear s = .next (s.setBw 0) := rfl

theorem exec_bwLdrx (s : State) : exec .bwLdrx s = .next (s.setBw (s.rxValue.setWidth 64)) := rfl

theorem exec_bwGet_of_ge {idx : BitVec 6} (h : s.cfg.bwW ≤ idx.toNat) : exec (.bwGet idx) s = .next (raise .idx s) :=
  if_pos h

theorem exec_bwGet_of_lt {idx : BitVec 6} (h : idx.toNat < s.cfg.bwW) :
    exec (.bwGet idx) s = .next (s.setDout (if s.bw.getLsbD idx.toNat then 1 else 0)) := by
  have hread : boolData ((bwValue s).getLsbD idx.toNat) = if s.bw.getLsbD idx.toNat then 1 else 0 := by
    rw [getLsbD_bwValue, decide_eq_true h, Bool.true_and, boolData_eq]
  rw [← hread]
  exact if_neg (Nat.not_le.mpr h)

theorem exec_bwSet_of_ge {idx : BitVec 6} {val : Bool} (h : s.cfg.bwW ≤ idx.toNat) :
    exec (.bwSet idx val) s = .next (raise .idx s) :=
  if_pos h

theorem exec_bwSet_of_lt {idx : BitVec 6} {val : Bool} (h : idx.toNat < s.cfg.bwW) :
    exec (.bwSet idx val) s = .next (s.setBw (withBit (bwValue s) idx.toNat val)) :=
  if_neg (Nat.not_le.mpr h)

/-- BW after BW.SET of a bit that it has, bit by bit (R102). -/
theorem getLsbD_setBw_withBit {idx : Nat} (h : idx < s.cfg.bwW) (val : Bool) {j : Nat} (hj : j < 64) :
    (s.setBw (withBit (bwValue s) idx val)).bw.getLsbD j =
      if j = idx then val else (decide (j < s.cfg.bwW) && s.bw.getLsbD j) := by
  rw [State.setBw_bw, getLsbD_lowBits, getLsbD_withBit _ _ _ _ hj, getLsbD_bwValue]
  split
  next heq => simp [heq, h]
  next => rw [← Bool.and_assoc, Bool.and_self]

/-- Where BW is wider than RX_VALUE, the cut to W bits takes nothing from it (R106). -/
theorem lowBits_payload {n : Nat} (h : 32 ≤ n) (v : Payload) : lowBits n (v.setWidth 64) = v.setWidth 64 := by
  apply BitVec.eq_of_getLsbD_eq
  intro j hj
  rw [getLsbD_lowBits]
  by_cases hn : j < n
  · simp [hn]
  · rw [BitVec.getLsbD_setWidth, BitVec.getLsbD_of_ge v j (by omega)]
    simp

/-- BW after BW.LDRX, bit by bit. -/
theorem getLsbD_lowBits_payload (n : Nat) (v : Payload) {j : Nat} (hj : j < 64) :
    (lowBits n (v.setWidth 64)).getLsbD j = (decide (j < n) && v.getLsbD j) := by
  rw [getLsbD_lowBits, BitVec.getLsbD_setWidth, decide_eq_true hj, Bool.true_and]

end Sys2Proof.Machine
end

/-! ### What a command depends on, and what it changes: R41's table for the BW unit -/

section
namespace Sys2Proof
open Sys2Proof.Machine

variable {s s' t : State}

theorem SameReg.symm {r : Reg} (h : SameReg r s t) : SameReg r t s := by
  cases r with
  | len sel | slots sel => cases sel <;> exact Eq.symm h
  | _ => exact Eq.symm h

theorem SameReg.trans {r : Reg} {u : State} (h : SameReg r s t) (h' : SameReg r t u) : SameReg r s u := by
  cases r with
  | len sel | slots sel => cases sel <;> exact Eq.trans h h'
  | _ => exact Eq.trans h h'

/-- From two states that agree on the configuration and on what a command reads, a register in which they agree holds
the same value in both results. -/
theorem exec_keeps_agreement {i : Instr} (h : exec i s = .next t) (hcfg : s'.cfg = s.cfg)
    (hread : ∀ r ∈ regsRead i, SameReg r s' s) :
    ∃ t', exec i s' = .next t' ∧ ∀ r, SameReg r s' s → SameReg r t' t := by
  obtain ⟨t', ht', hwritten, herr⟩ := exec_writesAlike i h hcfg hread
  refine ⟨t', ht', fun r hr => ?_⟩
  have of_kept (hkept' : SameReg r t' s') (hkept : SameReg r t s) : SameReg r t' t :=
    (hkept'.trans hr).trans hkept.symm
  by_cases hw : r ∈ regsWritten i
  · obtain hsame | ⟨hkept', hkept⟩ := hwritten r hw
    · exact hsame
    · exact of_kept hkept' hkept
  · by_cases he : r = .err
    · subst he
      have hr : s'.err = s.err := hr
      obtain ⟨hkept', hkept⟩ | ⟨hraised', hraised⟩ := herr
      · exact of_kept hkept' hkept
      · exact hraised'.trans (hr ▸ hraised.symm)
    · exact of_kept ((exec_writesOnly i ht').same r hw he) ((exec_writesOnly i h).same r hw he)

theorem WritesOnly.eq_of_bw_dout {regs : List Reg} (h : WritesOnly regs s t) (hregs : regs ⊆ [.bw, .dout]) :
    t = { s with bw := t.bw, dout := t.dout, err := t.err } := by
  refine eq_of_sameReg h.cfg h.host fun r => ?_
  have hsame : r ∉ [Reg.bw, .dout] → r ≠ .err → SameReg r t s := fun hr => h.same r (mt (@hregs r) hr)
  cases r with
  | bw | dout | err => rfl
  | len sel | slots sel => cases sel <;> exact hsame (by simp) nofun
  | _ => exact hsame (by simp) nofun

/-- The commands of the BW unit. -/
def bwCommands (idx : BitVec 6) (v : Bool) : List Instr :=
  [.bwNew, .bwGet idx, .bwSet idx v, .bwGetraw, .bwSetraw, .bwClear, .bwLdrx]

variable {idx : BitVec 6} {v : Bool} {i : Instr}

theorem bwCommands_read (h : i ∈ bwCommands idx v) : regsRead i ⊆ [.bw, .din, .rxValue] := by
  revert i
  simp [bwCommands, regsRead]

theorem bwCommands_write (h : i ∈ bwCommands idx v) : regsWritten i ⊆ [.bw, .dout] := by
  revert i
  simp [bwCommands, regsWritten]

theorem bwCommands_complete (h : i ∈ bwCommands idx v) (s : State) : ∃ t, exec i s = .next t := by
  revert i
  simp only [bwCommands, List.forall_mem_cons]
  exact ⟨⟨_, rfl⟩, execBwGet_completes idx s, execBwSet_completes idx v s, ⟨_, rfl⟩, ⟨_, rfl⟩, ⟨_, rfl⟩, ⟨_, rfl⟩,
    nofun⟩

/-- R107 (e): a command of the BW unit completes, depends on BW, DIN, DOUT, RX_VALUE and ERR alone and changes BW, DOUT
and ERR alone. -/
theorem bwCommands_confined (hi : i ∈ bwCommands idx v) (hcfg : s.cfg = s'.cfg) (hbw : s.bw = s'.bw)
    (hdin : s.din = s'.din) (hdout : s.dout = s'.dout) (hrx : s.rxValue = s'.rxValue) (herr : s.err = s'.err) :
    ∃ t t', exec i s = .next t ∧ exec i s' = .next t' ∧ t.bw = t'.bw ∧ t.dout = t'.dout ∧ t.err = t'.err ∧
      t = { s with bw := t.bw, dout := t.dout, err := t.err } := by
  obtain ⟨t, ht⟩ := bwCommands_complete hi s
  have hreads : ∀ r ∈ [Reg.bw, .din, .rxValue], SameReg r s' s := by
    simp [SameReg, hbw, hdin, hrx]
  obtain ⟨t', ht', hagree⟩ := exec_keeps_agreement ht hcfg.symm fun r hr => hreads r (bwCommands_read hi hr)
  exact ⟨t, t', ht, ht', (hagree .bw hbw.symm).symm, (hagree .dout hdout.symm).symm, (hagree .err herr.symm).symm,
    (exec_writesOnly i ht).eq_of_bw_dout (bwCommands_write hi)⟩

end Sys2Proof
end

/-! ### Settled: the BitWord Set -/

section
namespace Sys2Proof
open Sys2Proof.Machine

/-- Settles O18: (a) to (d) from the bits of BW after BW.SET, BW.CLEAR and a load, (e) from R41's table. -/
theorem bwLaws : Obligations.BwLaws := by
  refine ⟨fun s i v hi => ?written, fun s i j v hi hj hne => ?other, fun s i hi => ?cleared,
    fun s i hi load hload => ?loaded, fun s s' idx v i hi => bwCommands_confined hi⟩
  case written =>
    refine ⟨_, runCommands_pair (exec_bwSet_of_lt hi) (exec_bwGet_of_lt hi), ?_⟩
    rw [State.setDout_dout, getLsbD_setBw_withBit hi v (by omega), if_pos rfl]
  case other =>
    refine ⟨_, _, runCommands_pair (exec_bwSet_of_lt hi) (exec_bwGet_of_lt hj), exec_bwGet_of_lt hj, ?_⟩
    have hne' : j.toNat ≠ i.toNat := mt BitVec.eq_of_toNat_eq hne
    rw [State.setDout_dout, State.setDout_dout, getLsbD_setBw_withBit hi v (by omega), if_neg hne', decide_eq_true hj,
      Bool.true_and]
  case cleared =>
    refine ⟨_, _, runCommands_pair (exec_bwClear s) (exec_bwGet_of_lt hi), ?_,
      runCommands_pair (exec_bwClear s) (exec_bwGetraw _), ?_⟩
    · simp
    · exact (bwValue_setBw s 0).trans (lowBits_zero _)
  case loaded =>
    have hexec : exec load s = .next (s.setBw s.din) := by
      obtain rfl | rfl : load = .bwNew ∨ load = .bwSetraw := by simpa using hload
      · exact exec_bwNew s
      · exact exec_bwSetraw s
    refine ⟨_, _, runCommands_pair hexec (exec_bwGetraw _), bwValue_setBw s s.din,
      runCommands_pair hexec (exec_bwGet_of_lt hi), ?_⟩
    rw [State.setDout_dout, State.setBw_bw, getLsbD_lowBits, decide_eq_true hi, Bool.true_and]

/-- Settles O11. -/
theorem bwNewLoadsDin : Obligations.BwNewLoadsDin :=
  ⟨rfl, fun s => ⟨_, exec_bwNew s, fun j _ => getLsbD_lowBits _ _ j, rfl⟩⟩

/-- Settles O12: the index in range, and out of range. -/
theorem bwGetReadsBit : Obligations.BwGetReadsBit :=
  fun _ s => ⟨rfl, fun h => ⟨_, exec_bwGet_of_lt h, rfl, rfl⟩, fun h => ⟨_, exec_bwGet_of_ge h, raise_idx s⟩⟩

/-- Settles O13: the index in range, and out of range. -/
theorem bwSetWritesBit : Obligations.BwSetWritesBit := by
  intro idx val s
  refine ⟨?word, fun h => ⟨_, exec_bwSet_of_lt h, fun _ => getLsbD_setBw_withBit h val, rfl⟩,
    fun h => ⟨_, exec_bwSet_of_ge h, raise_idx s⟩⟩
  case word => cases val <;> rfl

/-- Settles O14. -/
theorem bwGetrawReadsBw : Obligations.BwGetrawReadsBw :=
  ⟨rfl, fun s => ⟨_, exec_bwGetraw s, fun j _ => getLsbD_bwValue s j, rfl⟩⟩

/-- Settles O15. -/
theorem bwSetrawLoadsDin : Obligations.BwSetrawLoadsDin :=
  ⟨rfl, fun s => ⟨(exec_bwSetraw s).trans (exec_bwNew s).symm, _, exec_bwSetraw s, fun j _ => getLsbD_lowBits _ _ j,
    rfl⟩⟩

/-- Settles O16: 0 cut to W bits is 0. -/
theorem bwClearZeroes : Obligations.BwClearZeroes := by
  refine ⟨rfl, fun s => ?_⟩
  rw [exec_bwClear, State.setBw, lowBits_zero]

/-- Settles O17: W up to 32 bits, and above. -/
theorem bwLdrxLoadsRxValue : Obligations.BwLdrxLoadsRxValue :=
  ⟨rfl, fun s => ⟨_, exec_bwLdrx s, fun _ _ => getLsbD_lowBits_payload _ _, fun h => lowBits_payload h.le _, rfl⟩⟩

end Sys2Proof
end

/-! ### The frame of a payload, bit by bit (41_wire_codec.md R110 to R112) -/

section
namespace Sys2Proof.Machine

/-- Byte i carries payload bits from 7i up, and byte 0 alone the start marker (R111). -/
theorem getLsbD_encodeFrame (v : Payload) (i : Nat) (h : i < 5) (k : Nat) (hk : k < 8) :
    (encodeFrame v)[i].getLsbD k = if k = 7 then decide (i = 0) else v.getLsbD (7 * i + k) := by
  have hmarker : ∀ k, k < 8 → (0x80 : Byte).getLsbD k = decide (k = 7) := by decide
  have hbyte : (encodeFrame v)[i].getLsbD k = ((frameGroup v i).getLsbD k || decide (i = 0) && decide (k = 7)) := by
    interval_cases i
    · rw [decide_eq_true rfl, Bool.true_and, ← hmarker k hk, ← BitVec.getLsbD_or]
      rfl
    all_goals simp [encodeFrame]
  rw [hbyte, getLsbD_frameGroup]
  by_cases h7 : k = 7
  · simp [h7]
  · simp [h7, show k < 7 by omega]

/-- Of the five groups only group `i` reaches payload bits 7i up to 7i+6. -/
theorem getLsbD_payloadGroup_group (b : Byte) (n : Nat) {i r : Nat} (hi : i < 5) (hr : r < 7) :
    (payloadGroup b n).getLsbD (7 * i + r) = (decide (i = n) && b.getLsbD r) := by
  rw [getLsbD_payloadGroup]
  by_cases h : i = n
  · subst h
    simp [hr, show 7 * i + r < 35 by omega]
  · have hout : ¬ (7 * n ≤ 7 * i + r ∧ 7 * i + r < 7 * n + 7) := by omega
    rw [decide_eq_false h, Bool.and_assoc (decide (7 * i + r < 35)), ← Bool.decide_and, decide_eq_false hout,
      Bool.and_false, Bool.false_and, Bool.false_and]

/-- Payload bit j is bit j mod 7 of byte j div 7 (R112). -/
theorem getLsbD_decodeFrame (f : Frame) (j : Nat) (h : j < 32) :
    (decodeFrame f).getLsbD j = (f[j / 7]'(by omega)).getLsbD (j % 7) := by
  obtain ⟨i, r, hr, rfl⟩ : ∃ i r, r < 7 ∧ j = 7 * i + r := ⟨j / 7, j % 7, by omega, by omega⟩
  have hi : i < 5 := by omega
  have hdiv : (7 * i + r) / 7 = i := by omega
  have hmod : (7 * i + r) % 7 = r := by omega
  simp only [hdiv, hmod, decodeFrame, BitVec.getLsbD_setWidth, BitVec.getLsbD_or, getLsbD_payloadGroup_group _ _ hi hr]
  rw [decide_eq_true h, Bool.true_and]
  interval_cases i <;> simp

/-- R115: decoding what was encoded gives the payload back. -/
theorem decodeFrame_encodeFrame (v : Payload) : decodeFrame (encodeFrame v) = v := by
  apply BitVec.eq_of_getLsbD_eq
  intro j hj
  rw [getLsbD_decodeFrame _ j hj, getLsbD_encodeFrame _ _ _ _ (by omega), if_neg (by omega), Nat.div_add_mod]

end Sys2Proof.Machine
end

/-! ### Receiving a whole frame (41_wire_codec.md R116, R119) -/

section
namespace Sys2Proof.Machine

/-- The state after the whole frame `f` has been received in `s`: decoded, emitted, and the framer idle (R116, R119). -/
def frameReceived (f : Frame) (s : State) : State :=
  { s with frBuf := f, frFill := 0, rxValue := decodeFrame f, dout := emittedData (decodeFrame f) }

/-- The bytes received before the last one leave no trace. -/
theorem frameReceived_frameStart (f : Frame) (b : Byte) (s : State) :
    frameReceived f (frameStart b s) = frameReceived f s := rfl

theorem frameReceived_frameContinue (f : Frame) (b : Byte) (s : State) :
    frameReceived f (frameContinue b s) = frameReceived f s := rfl

/-- The framer holds the first `n` bytes of the frame `f`. -/
structure HoldsBytes (f : Frame) (n : Nat) (s : State) : Prop where
  fill  : s.frFill.toNat = n
  bytes : ∀ (i : Nat) (h : i < 5), i < n → s.frBuf[i] = f[i]

variable {f : Frame} {s : State}

/-- A start byte begins the frame, whatever the framer held. -/
theorem holdsBytes_frameStart (f : Frame) (s : State) : HoldsBytes f 1 (frameStart f[0] s) where
  fill := rfl
  bytes i h hi := by
    obtain rfl : i = 0 := by omega
    rw [frameStart_frBuf, setIfInBounds_byte _ _ _ _ h, if_pos rfl]

theorem HoldsBytes.frameContinue {n : Nat} (h : HoldsBytes f n s) (hn : n ≤ 3) :
    HoldsBytes f (n + 1) (frameContinue f[n] s) where
  fill := by rw [frameContinue_frFill, frFill_add_one (h.fill ▸ hn), h.fill]
  bytes i hi hlt := by
    rw [frameContinue_frBuf, setIfInBounds_byte _ _ _ _ hi, h.fill]
    split
    next heq => subst heq; rfl
    next hne => exact h.bytes i hi (by omega)

theorem HoldsBytes.buffer_complete (h : HoldsBytes f 4 s) : s.frBuf.setIfInBounds s.frFill.toNat f[4] = f := by
  apply Vector.ext
  intro i hi
  rw [setIfInBounds_byte _ _ _ _ hi, h.fill]
  split
  next heq => subst heq; rfl
  next hne => exact h.bytes i hi (by omega)

theorem HoldsBytes.frameComplete (h : HoldsBytes f 4 s) : frameComplete f[4] s = frameReceived f s := by
  rw [Machine.frameComplete, h.buffer_complete]
  rfl

theorem frame_toList (f : Frame) : f.toList = [f[0], f[1], f[2], f[3], f[4]] := by
  apply List.ext_getElem
  · simp
  · intro i hi _
    have : i < 5 := by simpa using hi
    interval_cases i <;> rfl

/-- The five bytes of a well-formed frame (R110), received in order by a framer in any state, are decoded and emitted,
and the framer is idle. -/
theorem runCommands_frame (f : Frame) (hstart : f[0].getLsbD 7 = true)
    (hrest : ∀ (i : Nat) (h : i < 5), 1 ≤ i → f[i].getLsbD 7 = false) (s : State) :
    runCommands (f.toList.map .frRxb) s = .next (frameReceived f s) := by
  have h1 := holdsBytes_frameStart f s
  have h2 := h1.frameContinue (by decide)
  have h3 := h2.frameContinue (by decide)
  have h4 := h3.frameContinue (by decide)
  have start : exec (.frRxb f[0]) s = .next (frameStart f[0] s) := execFrRxb_start hstart
  have continue_of {n : Nat} {t : State} (h : HoldsBytes f n t) (hpos : 1 ≤ n) (hle : n ≤ 3) :
      exec (.frRxb f[n]) t = .next (frameContinue f[n] t) :=
    execFrRxb_continue (hrest n _ hpos) (h.fill ▸ hpos) (h.fill ▸ hle)
  have complete {t : State} (h : HoldsBytes f 4 t) : exec (.frRxb f[4]) t = .next (frameComplete f[4] t) :=
    execFrRxb_complete (hrest 4 _ (by decide)) h.fill
  rw [frame_toList]
  simp only [List.map_cons, List.map_nil]
  rw [runCommands_cons start, runCommands_cons (continue_of h1 (by decide) (by decide)),
    runCommands_cons (continue_of h2 (by decide) (by decide)),
    runCommands_cons (continue_of h3 (by decide) (by decide)), runCommands_singleton (complete h4), h4.frameComplete,
    frameReceived_frameContinue, frameReceived_frameContinue, frameReceived_frameContinue, frameReceived_frameStart]

end Sys2Proof.Machine
end

/-! ### Settled: the wire path -/

section
namespace Sys2Proof
open Sys2Proof.Machine

/-- R113, R205: the bytes that the sending half transmits are those of the frame of its scan. -/
theorem sentBytes_cdEnc (s : State) (scan : Payload) : ∃ t,
    exec .cdEnc (hostWriteDin (scan.setWidth 64) s) = .next t ∧ sentBytes t.dout = (encodeFrame scan).toList := by
  have hscan : dinPayload (hostWriteDin (scan.setWidth 64) s) = scan := BitVec.setWidth_setWidth_of_le scan (by decide)
  refine ⟨_, rfl, ?_⟩
  rw [State.setDout_dout, sentBytes, unpackFrame_packFrame, hscan]

/-- R119: the frame of a payload, sent to a framer in any state, is received whole. -/
theorem runCommands_encodeFrame (v : Payload) (s : State) :
    runCommands ((encodeFrame v).toList.map .frRxb) s = .next (frameReceived (encodeFrame v) s) := by
  have hmarker := fun i h => getLsbD_encodeFrame v i h 7 (by decide)
  refine runCommands_frame (encodeFrame v) (hmarker 0 _) (fun i h hi => ?_) s
  rw [hmarker i h, if_pos rfl, decide_eq_false (by omega)]

theorem frameReceived_encodeFrame_rxValue (v : Payload) (s : State) :
    (frameReceived (encodeFrame v) s).rxValue = v :=
  decodeFrame_encodeFrame v

/-- Settles O59: the bytes sent are the frame of the scan, a framer in any state decodes it, and BW.LDRX loads the
value. -/
theorem wirePathDelivers : Obligations.WirePathDelivers := by
  intro sender receiver scan
  obtain ⟨t, ht, hsent⟩ := sentBytes_cdEnc sender scan
  have hrx := frameReceived_encodeFrame_rxValue scan receiver
  have hloaded := (runCommands_append (runCommands_encodeFrame scan receiver) [.bwLdrx]).trans
    (runCommands_singleton (exec_bwLdrx _))
  rw [← hsent] at hloaded
  refine ⟨t, _, ht, hloaded, hrx, rfl, rfl, fun j hj => ?_⟩
  rw [State.setBw_bw, hrx, getLsbD_lowBits_payload _ _ hj]
  rfl

end Sys2Proof
end

/-! ### What each command of the codec and of the framer answers (41_wire_codec.md R113 to R118) -/

section
namespace Sys2Proof.Machine

variable {b : Byte} {s : State}

theorem exec_cdEnc (s : State) :
    exec .cdEnc s = .next (s.setDout ((packFrame (encodeFrame (dinPayload s))).setWidth 64)) := rfl

theorem exec_cdDec (s : State) : exec .cdDec s = .next (s.setDout ((decodeFrame (unpackFrame s.din)).setWidth 64)) :=
  rfl

theorem exec_frRdval (s : State) : exec .frRdval s = .next (s.setDout (s.rxValue.setWidth 64)) := rfl

/-- The fill count, five zeros, and the bytes of the buffer as R53 packs them: what FR.STAT shows (R118). -/
def statData (f : Frame) (fill : BitVec 3) : Data := (packFrame f ++ 0#5 ++ fill).setWidth 64

theorem exec_frStat (s : State) : exec .frStat s = .next (s.setDout (statData s.frBuf s.frFill)) := rfl

theorem exec_frRxb_start (hb : b.getLsbD 7 = true) : exec (.frRxb b) s = .next (frameStart b s) :=
  execFrRxb_start hb

theorem exec_frRxb_discard (hb : b.getLsbD 7 = false) (h : s.frFill.toNat = 0) :
    exec (.frRxb b) s = .next (s.setDout 0) :=
  execFrRxb_discard hb h

theorem exec_frRxb_continue (hb : b.getLsbD 7 = false) (h1 : 1 ≤ s.frFill.toNat) (h3 : s.frFill.toNat ≤ 3) :
    exec (.frRxb b) s = .next (frameContinue b s) :=
  execFrRxb_continue hb h1 h3

theorem exec_frRxb_complete (hb : b.getLsbD 7 = false) (h : s.frFill.toNat = 4) :
    exec (.frRxb b) s = .next (frameComplete b s) :=
  execFrRxb_complete hb h

end Sys2Proof.Machine
end

/-! ### The bits of DOUT after a command of the codec or of the framer -/

section
namespace Sys2Proof.Machine

/-- Byte 0 of an encoded frame alone has the marker (R110). -/
theorem encodeFrame_marker (v : Payload) (i : Nat) (h : i < 5) :
    (encodeFrame v)[i].getLsbD 7 = decide (i = 0) := by
  rw [getLsbD_encodeFrame v i h 7 (by decide), if_pos rfl]

/-- DOUT after CD.ENC, bit by bit (R113). -/
theorem getLsbD_packFrame_encodeFrame (v : Payload) (k : Nat) (h : k < 40) :
    ((packFrame (encodeFrame v)).setWidth 64 : Data).getLsbD k =
      if k % 8 = 7 then decide (k / 8 = 0) else v.getLsbD (7 * (k / 8) + k % 8) := by
  rw [packFrame_bit _ k h, getLsbD_encodeFrame _ _ _ _ (by omega)]

/-- The bits that are 0 in every encoded frame: the markers of bytes 1 to 4, and in byte 4 what lies above payload bit
31 (R113). -/
theorem packFrame_encodeFrame_zero_bits (v : Payload) :
    ∀ k ∈ [15, 23, 31, 36, 37, 38, 39], ((packFrame (encodeFrame v)).setWidth 64 : Data).getLsbD k = false := by
  intro k hk
  have hk40 : k < 40 := by revert k; decide
  rw [getLsbD_packFrame_encodeFrame v k hk40]
  have hcase : (k % 8 = 7 ∧ k / 8 ≠ 0) ∨ (k % 8 ≠ 7 ∧ 32 ≤ 7 * (k / 8) + k % 8) := by revert k; decide
  obtain ⟨hmarker, hbyte⟩ | ⟨hpayload, habove⟩ := hcase
  · rw [if_pos hmarker, decide_eq_false hbyte]
  · rw [if_neg hpayload, BitVec.getLsbD_of_ge v _ habove]

theorem packFrame_above (f : Frame) : ((packFrame f).setWidth 64 : Data).extractLsb' 40 24 = 0 := by
  apply BitVec.eq_of_getLsbD_eq
  intro j _
  rw [BitVec.getLsbD_extractLsb', packFrame_high f _ (by omega)]
  simp

/-- DOUT after CD.DEC, bit by bit (R114). -/
theorem getLsbD_decodeFrame_unpackFrame (d : Data) (j : Nat) (hj : j < 64) :
    ((decodeFrame (unpackFrame d)).setWidth 64 : Data).getLsbD j =
      (decide (j < 32) && d.getLsbD (8 * (j / 7) + j % 7)) := by
  rw [BitVec.getLsbD_setWidth, decide_eq_true hj, Bool.true_and]
  by_cases h : j < 32
  · rw [getLsbD_decodeFrame _ j h, unpackFrame_byte _ _ (by omega), BitVec.getLsbD_extractLsb',
      decide_eq_true h, decide_eq_true (by omega)]
  · rw [BitVec.getLsbD_of_ge _ j (by omega), decide_eq_false h, Bool.false_and]

/-- Above the bit that says that a frame completed, an emitted value is 0 (R116). -/
theorem emittedData_above (v : Payload) : (emittedData v).extractLsb' 33 31 = 0 := by
  apply BitVec.eq_of_getLsbD_eq
  intro j _
  rw [BitVec.getLsbD_extractLsb', emittedData, BitVec.getLsbD_setWidth, BitVec.getLsbD_of_ge _ _ (by omega)]
  simp

/-- DOUT after FR.STAT, bit by bit (R118). -/
theorem getLsbD_statData (f : Frame) (fill : BitVec 3) (k : Nat) (hk : k < 64) :
    (statData f fill).getLsbD k =
      if k < 3 then fill.getLsbD k
      else if k < 8 then false else ((packFrame f).setWidth 64 : Data).getLsbD (k - 8) := by
  rw [statData, BitVec.getLsbD_setWidth, BitVec.getLsbD_append, decide_eq_true hk, Bool.true_and]
  split
  next => rfl
  next hfill =>
    rw [BitVec.getLsbD_append]
    split
    next hzero => rw [if_pos (by omega), BitVec.getLsbD_zero]
    next hzero => rw [if_neg (by omega), BitVec.getLsbD_setWidth, decide_eq_true (by omega), Bool.true_and, Nat.sub_sub]

theorem statData_fill (f : Frame) (fill : BitVec 3) :
    (statData f fill).extractLsb' 0 3 = fill := by
  apply BitVec.eq_of_getLsbD_eq
  intro j hj
  rw [BitVec.getLsbD_extractLsb', getLsbD_statData _ _ _ (by omega), if_pos (by omega), decide_eq_true hj,
    Bool.true_and, Nat.zero_add]

theorem statData_gap (f : Frame) (fill : BitVec 3) :
    (statData f fill).extractLsb' 3 5 = 0 := by
  apply BitVec.eq_of_getLsbD_eq
  intro j hj
  rw [BitVec.getLsbD_extractLsb', getLsbD_statData _ _ _ (by omega), if_neg (by omega), if_pos (by omega)]
  simp

theorem statData_byte (f : Frame) (fill : BitVec 3) (i : Nat) (h : i < 5) :
    (statData f fill).extractLsb' (8 * i + 8) 8 = f[i] := by
  rw [← packFrame_byte f i h]
  apply BitVec.eq_of_getLsbD_eq
  intro j hj
  rw [BitVec.getLsbD_extractLsb', BitVec.getLsbD_extractLsb', getLsbD_statData _ _ _ (by omega), if_neg (by omega),
    if_neg (by omega), show 8 * i + 8 + j - 8 = 8 * i + j by omega]

theorem statData_above (f : Frame) (fill : BitVec 3) :
    (statData f fill).extractLsb' 48 16 = 0 := by
  apply BitVec.eq_of_getLsbD_eq
  intro j hj
  rw [BitVec.getLsbD_extractLsb', getLsbD_statData _ _ _ (by omega), if_neg (by omega), if_neg (by omega),
    packFrame_high f _ (by omega)]
  simp

end Sys2Proof.Machine
end

/-! ### Continuation bytes: completing a frame in progress, and discarded with none (41_wire_codec.md R116, R120) -/

section
namespace Sys2Proof.Machine

variable {f : Frame} {s : State}

theorem frame_drop (f : Frame) (n : Nat) (h : n < 5) : f.toList.drop n = f[n] :: f.toList.drop (n + 1) := by
  rw [List.drop_eq_getElem_cons (by rwa [Vector.length_toList]), Vector.getElem_toList]

theorem HoldsBytes.exec_continue {n : Nat} (h : HoldsBytes f n s) (hpos : 1 ≤ n) (hle : n ≤ 3)
    (hb : f[n].getLsbD 7 = false) : exec (.frRxb f[n]) s = .next (Machine.frameContinue f[n] s) :=
  exec_frRxb_continue hb (h.fill ▸ hpos) (h.fill ▸ hle)

theorem HoldsBytes.exec_complete (h : HoldsBytes f 4 s) (hb : f[4].getLsbD 7 = false) :
    exec (.frRxb f[4]) s = .next (frameReceived f s) :=
  h.frameComplete ▸ exec_frRxb_complete hb h.fill

/-- A framer that holds a frame's first bytes, at least one of them, completes it with the rest. -/
theorem HoldsBytes.runCommands_rest {n : Nat} (h : HoldsBytes f n s) (hpos : 1 ≤ n) (hle : n ≤ 4)
    (hrest : ∀ b ∈ f.toList.drop n, b.getLsbD 7 = false) :
    runCommands ((f.toList.drop n).map .frRxb) s = .next (frameReceived f s) := by
  obtain ⟨m, hm⟩ : ∃ m, n + m = 4 := ⟨4 - n, by omega⟩
  induction m generalizing n s with
  | zero =>
    obtain rfl : n = 4 := hm
    have hlast : f.toList.drop 4 = [f[4]] := by rw [frame_toList]; rfl
    rw [hlast] at hrest ⊢
    exact runCommands_singleton (h.exec_complete (hrest _ List.mem_cons_self))
  | succ m ih =>
    rw [frame_drop f n (by omega)] at hrest ⊢
    obtain ⟨hbyte, hrest⟩ := List.forall_mem_cons.mp hrest
    rw [List.map_cons, runCommands_cons (h.exec_continue hpos (by omega) hbyte),
      ih (h.frameContinue (by omega)) (by omega) (by omega) hrest (by omega), frameReceived_frameContinue]

/-- The bytes in the framer are the first ones of every frame that continues them. -/
theorem holdsBytes_of_toList {bytes : List Byte} (h : f.toList = s.frBuf.toList.take s.frFill.toNat ++ bytes) :
    HoldsBytes f s.frFill.toNat s where
  fill := rfl
  bytes i hi hlt := by
    have hget := congrArg (·[i]?) h
    rw [List.getElem?_append_left (by simp; omega), List.getElem?_take_of_lt hlt] at hget
    simpa [hi] using hget.symm

theorem exists_frame_of_length {l : List Byte} (h : l.length = 5) : ∃ f : Frame, f.toList = l :=
  ⟨⟨l.toArray, h⟩, rfl⟩

/-- With no frame in progress, continuation bytes change nothing but DOUT, which the first of them clears (R116). -/
theorem runCommands_discard (b : Byte) (bytes : List Byte) (hcont : ∀ c ∈ b :: bytes, c.getLsbD 7 = false)
    (hfill : s.frFill.toNat = 0) : runCommands ((b :: bytes).map .frRxb) s = .next (s.setDout 0) := by
  obtain ⟨hb, hbytes⟩ := List.forall_mem_cons.mp hcont
  rw [List.map_cons, runCommands_cons (exec_frRxb_discard hb hfill)]
  clear hcont
  induction bytes with
  | nil => rfl
  | cons c cs ih =>
    obtain ⟨hc, hcs⟩ := List.forall_mem_cons.mp hbytes
    rw [List.map_cons, runCommands_cons (exec_frRxb_discard (s := s.setDout 0) hc hfill)]
    exact ih hcs

end Sys2Proof.Machine
end

/-! ### Settled: the wire codec and the receive framer -/

section
namespace Sys2Proof
open Sys2Proof.Machine

/-- Settles O19. -/
theorem encodeFrameLayout : Obligations.EncodeFrameLayout := getLsbD_encodeFrame

/-- Settles O20. -/
theorem decodeFrameLayout : Obligations.DecodeFrameLayout := getLsbD_decodeFrame

/-- Settles O21: the bytes as R53 packs them, and the bits that no encoded frame has. -/
theorem cdEncPacksFrame : Obligations.CdEncPacksFrame :=
  ⟨rfl, fun s => ⟨_, exec_cdEnc s, packFrame_byte _, packFrame_above _, getLsbD_packFrame_encodeFrame _ 7 (by decide),
    packFrame_encodeFrame_zero_bits _, rfl⟩⟩

/-- Settles O22: the decoded bits read back through the unpacked bytes. -/
theorem cdDecUnpacksFrame : Obligations.CdDecUnpacksFrame :=
  ⟨rfl, fun s => ⟨_, exec_cdDec s, getLsbD_decodeFrame_unpackFrame s.din, rfl⟩⟩

/-- Settles O23: unpacking undoes packing, and decoding undoes encoding. -/
theorem codecRoundTrip : Obligations.CodecRoundTrip := by
  refine ⟨decodeFrame_encodeFrame, fun s => ⟨_, _, exec_cdEnc s, exec_cdDec _, ?_⟩⟩
  simp only [hostWriteDin, State.setDout_dout, State.setDin_din]
  rw [unpackFrame_packFrame, decodeFrame_encodeFrame, dinPayload]

/-- Settles O24: the four cases of R116. -/
theorem rxbReceivesByte : Obligations.RxbReceivesByte := by
  intro b s
  refine ⟨rfl, fun hb => ?start, fun hb h0 => ?discarded, fun hb h1 h3 => ?continued, fun hb h4 => ?completed⟩
  case start =>
    exact ⟨_, exec_frRxb_start hb, setIfInBounds_byte _ _ _, rfl, rfl, rfl⟩
  case discarded =>
    exact exec_frRxb_discard hb (congrArg BitVec.toNat h0)
  case continued =>
    exact ⟨_, exec_frRxb_continue hb h1 h3, setIfInBounds_byte _ _ _, frFill_add_one h3, rfl, rfl⟩
  case completed =>
    exact ⟨_, exec_frRxb_complete hb h4, fun i h => h4 ▸ setIfInBounds_byte _ _ _ i h, rfl, rfl, emittedData_low _,
      getLsbD_emittedData_32 _, emittedData_above _, rfl⟩

/-- Settles O27: the start byte begins the frame whatever the framer held, each of the next three adds one byte to it,
and the fifth completes it. -/
theorem framerResynchronises : Obligations.FramerResynchronises := by
  intro s v
  have hmarker := encodeFrame_marker v
  have h1 := holdsBytes_frameStart (encodeFrame v) s
  have h2 := h1.frameContinue (by decide)
  have h3 := h2.frameContinue (by decide)
  have h4 := h3.frameContinue (by decide)
  refine ⟨_, _, _, _, _, exec_frRxb_start (hmarker 0 (by decide)),
    h1.exec_continue (by decide) (by decide) (hmarker 1 (by decide)),
    h2.exec_continue (by decide) (by decide) (hmarker 2 (by decide)),
    h3.exec_continue (by decide) (by decide) (hmarker 3 (by decide)), h4.exec_complete (hmarker 4 (by decide)), ?quiet,
    frameReceived_encodeFrame_rxValue v _, rfl, ?emitted⟩
  case quiet => simp
  case emitted =>
    rw [frameReceived, emittedData_toNat, decodeFrame_encodeFrame]

/-- Settles O28: the bytes held and the first ones received make up one frame, and the others find none in progress. -/
theorem framerMisframesOnLostStart : Obligations.FramerMisframesOnLostStart := by
  intro s bytes hlen hcont hpos hle
  obtain ⟨f, hf⟩ := exists_frame_of_length
    (l := s.frBuf.toList.take s.frFill.toNat ++ bytes.take (5 - s.frFill.toNat)) (by simp; omega)
  have hdrop : f.toList.drop s.frFill.toNat = bytes.take (5 - s.frFill.toNat) := by
    rw [hf, List.drop_left' (by simp; omega)]
  have hreceived := (holdsBytes_of_toList hf).runCommands_rest hpos hle
    (hdrop ▸ fun b hb => hcont b (List.mem_of_mem_take hb))
  rw [hdrop] at hreceived
  obtain ⟨c, cs, hrest⟩ : ∃ c cs, bytes.drop (5 - s.frFill.toNat) = c :: cs :=
    List.exists_cons_of_length_pos (by simp; omega)
  refine ⟨_, _, hreceived, hf, rfl, rfl, emittedData_toNat _, ?_, rfl⟩
  rw [hrest]
  exact runCommands_discard c cs (fun b hb => hcont b (List.mem_of_mem_drop (hrest ▸ hb))) rfl

/-- Settles O25. -/
theorem rdvalReadsRxValue : Obligations.RdvalReadsRxValue :=
  ⟨rfl, fun s => ⟨_, exec_frRdval s, BitVec.toNat_setWidth_of_le (by decide), rfl⟩⟩

/-- Settles O26. -/
theorem frStatReadsFramer : Obligations.FrStatReadsFramer :=
  ⟨rfl, fun s => ⟨_, exec_frStat s, statData_fill _ _, statData_gap _ _, statData_byte _ _, statData_above _ _, rfl⟩⟩

end Sys2Proof
end

/-! ### A report buffer after one push, and after a clear and a run of pushes (42_report_buffer.md R130, R131) -/

section
namespace Sys2Proof.Machine.ReportBuffer

variable {w cap : Nat} {b : ReportBuffer w}

/-- Each slot after a push that has room: the code at the old length, as before elsewhere. -/
theorem push_slot (c : BitVec w) (h : b.len.toNat < cap) (hs : b.slot.length = cap) (i : Nat) :
    (b.push cap c).slot[i]? = if i = b.len.toNat then some c else b.slot[i]? := by
  rw [push_slot_of_lt c h, List.getElem?_set]
  by_cases hi : i = b.len.toNat
  · rw [if_pos hi.symm, if_pos hi, if_pos (hs ▸ h)]
  · rw [if_neg (Ne.symm hi), if_neg hi]

/-- Each slot after a clear and a run of pushes: the pushed codes in order up to the new length, as before above. -/
theorem pushes_clear_slot (hcap : cap ≤ 127) (codes : List (BitVec w)) (hs : b.slot.length = cap) (i : Nat) :
    (pushes cap codes b.clear).slot[i]? = if i < min codes.length cap then codes[i]? else b.slot[i]? := by
  have hslot := pushes_slot hcap codes (b := b.clear) (Nat.zero_le _) hs i
  simpa using hslot

end Sys2Proof.Machine.ReportBuffer
end

/-! ### What each command of the RB unit does (42_report_buffer.md R133 to R138) -/

section
namespace Sys2Proof.Machine

variable {s : State}

theorem selBits_eq_ite (sel : Sel) : selBits sel = if sel = .secondary then 0x00800000#32 else 0 := by
  cases sel <;> rfl

/-- CODE[7:0], as a cut of the width and as a field (R134). -/
theorem primaryCode_eq_extract (code : BitVec 16) : primaryCode code = code.extractLsb' 0 8 :=
  BitVec.setWidth_eq_extractLsb' (by decide)

theorem exec_rbClear (sel : Sel) (s : State) : exec (.rbClear sel) s = .next (clearBuffer sel s) := rfl

theorem exec_rbPush_primary (code : BitVec 16) (s : State) :
    exec (.rbPush .primary code) s = .next (pushPrimary (primaryCode code) s) := rfl

theorem exec_rbPush_secondary (code : BitVec 16) (s : State) :
    exec (.rbPush .secondary code) s = .next (pushSecondary code s) := rfl

theorem pushPrimary_full (c : PCode) (h : s.cfg.capP ≤ s.rbP.len.toNat) : pushPrimary c s = s := by
  rw [pushPrimary, ReportBuffer.push_full c h, State.setRbP]

theorem pushSecondary_full (c : SCode) (h : s.cfg.capS ≤ s.rbS.len.toNat) : pushSecondary c s = s := by
  rw [pushSecondary, ReportBuffer.push_full c h, State.setRbS]

theorem exec_rbFill_primary (ix : BitVec 7) (code : BitVec 16) (s : State) :
    exec (.rbFill .primary ix code) s = .next (fillPrimary (primaryCode code) ix.toNat s) := rfl

theorem exec_rbFill_secondary (ix : BitVec 7) (code : BitVec 16) (s : State) :
    exec (.rbFill .secondary ix code) s = .next (fillSecondary code ix.toNat s) := rfl

theorem exec_rbLen (sel : Sel) (s : State) :
    exec (.rbLen sel) s = .next (s.setDout ((bufferLen s sel).setWidth 64)) := rfl

/-- What RB.LEN leaves in DOUT, as a number: zero-extension keeps the length (R136). -/
theorem exec_rbLen_dout_toNat {sel : Sel} {t : State} (h : exec (.rbLen sel) s = .next t) :
    t.dout.toNat = (bufferLen s sel).toNat := by
  cases h
  exact BitVec.toNat_setWidth_of_le (by decide)

theorem exec_rbRead_of_ge {sel : Sel} {ix : BitVec 7} (h : capOf s.cfg sel ≤ ix.toNat) :
    exec (.rbRead sel ix) s = .next (raise .idx s) :=
  if_pos h

theorem exec_rbRead_of_lt {sel : Sel} {ix : BitVec 7} {v : Data} (h : ix.toNat < capOf s.cfg sel)
    (hv : slotData s sel ix.toNat = some v) : exec (.rbRead sel ix) s = .next (s.setDout v) := by
  change execRbRead sel ix s = _
  rw [execRbRead, if_neg (Nat.not_le.mpr h), hv]

theorem slotData_primary {i : Nat} {c : PCode} (h : s.rbP.slot[i]? = some c) :
    slotData s .primary i = some (c.setWidth 64) := by
  rw [slotData, h, Option.map_some]

theorem slotData_secondary {i : Nat} {c : SCode} (h : s.rbS.slot[i]? = some c) :
    slotData s .secondary i = some (c.setWidth 64) := by
  rw [slotData, h, Option.map_some]

end Sys2Proof.Machine
end

/-! ### A run of RB.PUSH commands to one buffer (42_report_buffer.md R138) -/

section
namespace Sys2Proof
open Sys2Proof.Machine

theorem runCommands_rbPush_primary (codes : List (BitVec 16)) (s : State) :
    runCommands (codes.map (.rbPush .primary)) s =
      .next (s.setRbP (ReportBuffer.pushes s.cfg.capP (codes.map primaryCode) s.rbP)) := by
  induction codes generalizing s with
  | nil => rfl
  | cons c cs ih => rw [List.map_cons, runCommands_cons (exec_rbPush_primary c s), ih]; rfl

theorem runCommands_rbPush_secondary (codes : List (BitVec 16)) (s : State) :
    runCommands (codes.map (.rbPush .secondary)) s =
      .next (s.setRbS (ReportBuffer.pushes s.cfg.capS codes s.rbS)) := by
  induction codes generalizing s with
  | nil => rfl
  | cons c cs ih => rw [List.map_cons, runCommands_cons (exec_rbPush_secondary c s), ih]; rfl

/-- RB.CLEAR and then pushes: the whole run in closed form. -/
theorem runCommands_clear_push_primary (codes : List (BitVec 16)) (s : State) :
    runCommands (.rbClear .primary :: codes.map (.rbPush .primary)) s =
      .next (s.setRbP (ReportBuffer.pushes s.cfg.capP (codes.map primaryCode) s.rbP.clear)) :=
  (runCommands_cons (exec_rbClear .primary s) _).trans (runCommands_rbPush_primary codes _)

theorem runCommands_clear_push_secondary (codes : List (BitVec 16)) (s : State) :
    runCommands (.rbClear .secondary :: codes.map (.rbPush .secondary)) s =
      .next (s.setRbS (ReportBuffer.pushes s.cfg.capS codes s.rbS.clear)) :=
  (runCommands_cons (exec_rbClear .secondary s) _).trans (runCommands_rbPush_secondary codes _)

end Sys2Proof
end

/-! ### Settled: the report buffers -/

section
namespace Sys2Proof
open Sys2Proof.Machine

/-- Settles O31: for each buffer a slot left, and none. -/
theorem rbPushAppendsOrDrops : Obligations.RbPushAppendsOrDrops := by
  refine ⟨fun sel code => by rw [← selBits_eq_ite]; rfl, fun s code hvalid hinv => ?_⟩
  obtain ⟨hcapP, hcapS⟩ := caps_of_valid hvalid
  refine ⟨fun h => ?appendP, fun h => ?dropP, fun h => ?appendS, fun h => ?dropS⟩
  case appendP =>
    rw [← primaryCode_eq_extract]
    exact ⟨_, exec_rbPush_primary code s, ReportBuffer.push_len_of_lt _ h hcapP,
      ReportBuffer.push_slot _ h hinv.slotsP, rfl⟩
  case dropP => rw [exec_rbPush_primary, pushPrimary_full _ h.ge]
  case appendS =>
    exact ⟨_, exec_rbPush_secondary code s, ReportBuffer.push_len_of_lt _ h hcapS,
      ReportBuffer.push_slot _ h hinv.slotsS, rfl⟩
  case dropS => rw [exec_rbPush_secondary, pushSecondary_full _ h.ge]

/-- Settles O32, slot by slot for each buffer. -/
theorem rbFillOverwritesTail : Obligations.RbFillOverwritesTail := by
  refine ⟨fun sel ix code => by rw [← selBits_eq_ite]; rfl, fun s ix code hinv => ⟨?primary, ?secondary⟩⟩
  case primary =>
    rw [← primaryCode_eq_extract]
    exact ⟨_, exec_rbFill_primary ix code s, rfl, ReportBuffer.fill_slot _ _ hinv.slotsP, rfl⟩
  case secondary =>
    exact ⟨_, exec_rbFill_secondary ix code s, rfl, ReportBuffer.fill_slot _ _ hinv.slotsS, rfl⟩

/-- Settles O34: for each buffer the index in range, and out of range. -/
theorem rbReadReadsSlot : Obligations.RbReadReadsSlot := by
  refine ⟨fun sel ix => by rw [← selBits_eq_ite]; rfl, fun s ix => ⟨fun c hix hc => ?readP, fun h => ?idxP,
    fun c hix hc => ?readS, fun h => ?idxS⟩⟩
  case readP =>
    exact ⟨_, exec_rbRead_of_lt hix (slotData_primary hc), BitVec.toNat_setWidth_of_le (by decide), rfl⟩
  case idxP => exact ⟨_, exec_rbRead_of_ge h, raise_idx s⟩
  case readS =>
    exact ⟨_, exec_rbRead_of_lt hix (slotData_secondary hc), BitVec.toNat_setWidth_of_le (by decide), rfl⟩
  case idxS => exact ⟨_, exec_rbRead_of_ge h, raise_idx s⟩

/-- Settles O36, from the run in closed form. -/
theorem pushesAfterClear : Obligations.PushesAfterClear := by
  refine ⟨fun s codes hvalid hinv => ?primary, fun s codes hvalid hinv => ?secondary⟩
  case primary =>
    have hcap := (caps_of_valid hvalid).1
    have hslot := ReportBuffer.pushes_clear_slot hcap (codes.map primaryCode) hinv.slotsP
    refine ⟨_, runCommands_clear_push_primary codes s, ?_, fun i => ?_, rfl⟩
    · exact (pushes_clear_len hcap _ _).trans (by rw [List.length_map])
    · exact (hslot i).trans (by rw [List.length_map, List.getElem?_map, funext primaryCode_eq_extract])
  case secondary =>
    have hcap := (caps_of_valid hvalid).2
    exact ⟨_, runCommands_clear_push_secondary codes s, pushes_clear_len hcap _ _,
      ReportBuffer.pushes_clear_slot hcap codes hinv.slotsS, rfl⟩

/-- Settles O30. -/
theorem rbClearKeepsSlots : Obligations.RbClearKeepsSlots :=
  ⟨fun sel => by rw [← selBits_eq_ite]; rfl,
    fun s => ⟨⟨_, exec_rbClear .primary s, rfl, rfl, rfl⟩, ⟨_, exec_rbClear .secondary s, rfl, rfl, rfl⟩⟩⟩

/-- Settles O33: the length zero-extended, at most CAP by the invariant. -/
theorem rbLenReadsLength : Obligations.RbLenReadsLength :=
  ⟨fun sel => by rw [← selBits_eq_ite]; rfl,
    fun s => ⟨⟨_, exec_rbLen .primary s, exec_rbLen_dout_toNat (exec_rbLen ..), rfl⟩,
      ⟨_, exec_rbLen .secondary s, exec_rbLen_dout_toNat (exec_rbLen ..), rfl⟩,
      fun hinv _ h => (exec_rbLen_dout_toNat h).trans_le hinv.lenP,
      fun hinv _ h => (exec_rbLen_dout_toNat h).trans_le hinv.lenS⟩⟩

end Sys2Proof
end

/-! ### The matrices and the layers of a cycle (43_synthesizer.md R141, R143, R144) -/

section
namespace Sys2Proof.Machine

theorem lfk_lt_of_valid {c : Config} (h : configValid c = true) : c.lfk < 30 := by
  obtain ⟨-, -, hkeys, -⟩ := (configValid_iff c).mp h
  exact ((keysValid_iff c).mp hkeys).1

theorem getLsbD_leftMatrix (s : State) {p : Nat} (hp : p < 30) : (leftMatrix s).getLsbD p = s.din.getLsbD p := by
  rw [leftMatrix, BitVec.getLsbD_setWidth, decide_eq_true hp, Bool.true_and]

theorem getLsbD_rightMatrix {s : State} (hW : 29 ≤ s.cfg.bwW) {p : Nat} (hp : p < 29) :
    (rightMatrix s).getLsbD p = s.bw.getLsbD p := by
  have hpW : p < s.cfg.bwW := by omega
  rw [rightMatrix, BitVec.getLsbD_setWidth, getLsbD_bwValue, decide_eq_true hp, decide_eq_true hpW, Bool.true_and,
    Bool.true_and]

/-- The left matrix is DIN[29:0]. -/
theorem leftMatrix_eq_extract (s : State) : leftMatrix s = s.din.extractLsb' 0 30 :=
  BitVec.setWidth_eq_extractLsb' (by decide)

/-- Where BW is wide enough for a cycle (R10), the right matrix is BW[28:0]. -/
theorem rightMatrix_eq_extract {s : State} (hW : 29 ≤ s.cfg.bwW) : rightMatrix s = s.bw.extractLsb' 0 29 := by
  apply BitVec.eq_of_getLsbD_eq
  intro p hp
  rw [getLsbD_rightMatrix hW hp, BitVec.getLsbD_extractLsb', decide_eq_true hp, Bool.true_and, Nat.zero_add]

theorem leftLayer_of_pressed {c : Config} {left : LeftBits} (h : left.getLsbD c.lfk = true) : leftLayer c left = 1 :=
  if_pos h

theorem leftLayer_of_released {c : Config} {left : LeftBits} (h : left.getLsbD c.lfk = false) : leftLayer c left = 0 :=
  if_neg (by rw [h]; decide)

/-- A left layer other than 0 comes from the function key alone. -/
theorem pressed_of_cycleLeft_ne_zero {s : State} (h : cycleLeft s ≠ 0) : (leftMatrix s).getLsbD s.cfg.lfk = true := by
  by_contra hnot
  exact h (leftLayer_of_released (Bool.eq_false_iff.mpr hnot))

theorem rightLayer_override (c : Config) (right : RightBits) : rightLayer c 1 right = 1 := rfl

theorem rightLayer_of_ne_one {ll : Layer} (h : ll ≠ 1) (c : Config) (right : RightBits) :
    rightLayer c ll right = firstKeyLayer c.rfk right :=
  if_neg (by simpa using h)

theorem firstKeyLayer_cons_of_pressed {k : FnKey} {right : RightBits} (h : right.getLsbD k.pos = true)
    (ks : List FnKey) : firstKeyLayer (k :: ks) right = k.layer :=
  if_pos h

/-- Released function keys at the head of the list are passed over. -/
theorem firstKeyLayer_append_of_released {before : List FnKey} {right : RightBits}
    (h : ∀ q ∈ before, right.getLsbD q.pos = false) (after : List FnKey) :
    firstKeyLayer (before ++ after) right = firstKeyLayer after right := by
  induction before with
  | nil => rfl
  | cons q before ih =>
    obtain ⟨hq, hbefore⟩ := List.forall_mem_cons.mp h
    rw [← ih hbefore]
    exact if_neg (by rw [hq]; decide)

end Sys2Proof.Machine
end

/-! ### What a cycle leaves in each register (43_synthesizer.md R140) -/

section
namespace Sys2Proof.Machine

theorem exec_synCycle {s : State} (h : cycleAllowed s.cfg = true) : exec .synCycle s = .next (synCycle s) :=
  execSynCycle_of_allowed h

/-- A report buffer after a cycle that pushes `codes` into it: cleared, filled with the codes, and its tail filled if the
report got shorter (R142, R151). -/
def ReportBuffer.afterCycle {w : Nat} (cap : Nat) (sentinel : BitVec w) (codes : List (BitVec w)) (b : ReportBuffer w) :
    ReportBuffer w :=
  tailFilled cap sentinel b.len (ReportBuffer.pushes cap codes b.clear)

variable (s : State)

@[simp] theorem synCycle_cfg : (synCycle s).cfg = s.cfg := by rw [synCycle_eq]
@[simp] theorem synCycle_din : (synCycle s).din = s.din := by rw [synCycle_eq]
@[simp] theorem synCycle_bw : (synCycle s).bw = s.bw := by rw [synCycle_eq]
@[simp] theorem synCycle_layerL : (synCycle s).layerL = cycleLeft s := by rw [synCycle_eq]
@[simp] theorem synCycle_layerR : (synCycle s).layerR = cycleRight s := by rw [synCycle_eq]
@[simp] theorem synCycle_maskL : (synCycle s).maskL = maskLeftAfter s := by rw [synCycle_eq]
@[simp] theorem synCycle_maskR : (synCycle s).maskR = maskRightAfter s := by rw [synCycle_eq]

@[simp] theorem synCycle_rbP :
    (synCycle s).rbP = s.rbP.afterCycle s.cfg.capP s.cfg.sentP (cyclePrimary s) := by
  rw [synCycle_eq]; rfl

@[simp] theorem synCycle_rbS :
    (synCycle s).rbS = s.rbS.afterCycle s.cfg.capS s.cfg.sentS (cycleSecondary s) := by
  rw [synCycle_eq]; rfl

/-- Beside the buffers, the layers and the masks a cycle writes nothing. -/
theorem synCycle_frame : synCycle s = { s with
    rbP := (synCycle s).rbP, rbS := (synCycle s).rbS, layerL := (synCycle s).layerL, layerR := (synCycle s).layerR,
    maskL := (synCycle s).maskL, maskR := (synCycle s).maskR } := by
  rw [synCycle_eq]

/-! The block masks after a cycle, bit by bit, and what they say of the codes it pushed (R145, R146, R148, R149). -/

theorem getLsbD_maskLeftAfter (p : Nat) : (maskLeftAfter s).getLsbD p =
    ((leftMatrix s).getLsbD p && (cycleLeft s != s.layerL || s.maskL.getLsbD p)) := by
  unfold maskLeftAfter
  by_cases h : cycleLeft s = s.layerL
  · rw [if_pos h, BitVec.getLsbD_and, bne_eq_false_iff_eq.mpr h, Bool.false_or]
  · rw [if_neg h, bne_iff_ne.mpr h, Bool.true_or, Bool.and_true]

theorem getLsbD_maskRightAfter (p : Nat) : (maskRightAfter s).getLsbD p =
    ((rightMatrix s).getLsbD p && (cycleRight s != s.layerR || s.maskR.getLsbD p)) := by
  unfold maskRightAfter
  by_cases h : cycleRight s = s.layerR
  · rw [if_pos h, BitVec.getLsbD_and, bne_eq_false_iff_eq.mpr h, Bool.false_or]
  · rw [if_neg h, bne_iff_ne.mpr h, Bool.true_or, Bool.and_true]

/-- A left position's code is pushed exactly when it is pressed and the cycle leaves it unblocked. -/
theorem emitsLeft_eq (p : Nat) :
    emitsLeft s p = ((leftMatrix s).getLsbD p && !(maskLeftAfter s).getLsbD p) := by
  rw [getLsbD_maskLeftAfter, emitsLeft, bne]
  cases (leftMatrix s).getLsbD p <;> simp

/-- A right position's code is pushed exactly when it is pressed and the cycle leaves it unblocked. -/
theorem emitsRight_eq (p : Nat) :
    emitsRight s p = ((rightMatrix s).getLsbD p && !(maskRightAfter s).getLsbD p) := by
  rw [getLsbD_maskRightAfter, emitsRight, bne]
  cases (rightMatrix s).getLsbD p <;> simp

variable {s}

theorem emitsLeft_eq_false {p : Nat} (h : (leftMatrix s).getLsbD p = true →
    cycleLeft s ≠ s.layerL ∨ s.maskL.getLsbD p = true) : emitsLeft s p = false := by
  rw [emitsLeft_eq, getLsbD_maskLeftAfter]
  cases hp : (leftMatrix s).getLsbD p with
  | false => rfl
  | true =>
    obtain hchange | hblocked := h hp
    · rw [bne_iff_ne.mpr hchange]; rfl
    · rw [hblocked, Bool.or_true]; rfl

theorem emitsRight_eq_false {p : Nat} (h : (rightMatrix s).getLsbD p = true →
    cycleRight s ≠ s.layerR ∨ s.maskR.getLsbD p = true) : emitsRight s p = false := by
  rw [emitsRight_eq, getLsbD_maskRightAfter]
  cases hp : (rightMatrix s).getLsbD p with
  | false => rfl
  | true =>
    obtain hchange | hblocked := h hp
    · rw [bne_iff_ne.mpr hchange]; rfl
    · rw [hblocked, Bool.or_true]; rfl

end Sys2Proof.Machine
end

/-! ### Only a cycle writes the layers and the block masks: steps that are a cycle, and steps that are not -/

section
namespace Sys2Proof
open Sys2Proof.Machine

variable {s t : State}

theorem synthesizer_written {r : Reg} (hr : r ∈ [Reg.layerL, .layerR, .maskL, .maskR]) {i : Instr}
    (h : r ∈ regsWritten i) : i = .synCycle := by
  revert r
  cases i <;> simp [regsWritten]

/-- Where SYN.CYCLE is the host's next action, the step is a cycle. -/
theorem step_cycle (hnext : CycleNext s) (h : step s = .next t) : ∃ rest, t = synCycle (s.setHost rest) := by
  obtain ⟨w, rest, hhost, hd⟩ := hnext
  rw [step_of_command (step_cases h).1 hhost, issue_of_legal _ hd] at h
  exact ⟨rest, (execSynCycle_cases h).2⟩

theorem step_cycle_masks (hnext : CycleNext s) (h : step s = .next t) :
    t.maskL = maskLeftAfter s ∧ t.maskR = maskRightAfter s := by
  obtain ⟨rest, rfl⟩ := step_cycle hnext h
  exact ⟨synCycle_maskL _, synCycle_maskR _⟩

/-- Any other step leaves the layers and the masks as they are. -/
theorem step_keeps_synthesizer (hnext : ¬ CycleNext s) (h : step s = .next t) :
    ∀ r ∈ [Reg.layerL, .layerR, .maskL, .maskR], SameReg r t s := by
  obtain ⟨-, ⟨-, rfl⟩ | ⟨v, rest, -, rfl⟩ | ⟨w, rest, hhost, ⟨e, -, rfl⟩ | ⟨i, hd, hexec⟩⟩⟩ := step_cases h
  · simp [SameReg]
  · simp [SameReg]
  · simp [SameReg, raise]
  · intro r hr
    have hi : i ≠ .synCycle := fun hi => hnext ⟨w, rest, hhost, hi ▸ hd⟩
    have hkept := (exec_writesOnly i hexec).same r (fun hw => hi (synthesizer_written hr hw))
    revert r
    simp [SameReg]

end Sys2Proof
end

/-! ### The left function key stays blocked while it holds its layer (43_synthesizer.md R153 (d)) -/

section
namespace Sys2Proof
open Sys2Proof.Machine

variable {s t : State}

/-- In a cycle that leaves a left layer other than 0 the function key is pressed, and it is blocked: by the snapshot if
the layer changed, and as before if it did not. -/
theorem FunctionKeyBlocked.blockedAfter (h : FunctionKeyBlocked s) (hlayer : cycleLeft s ≠ 0) :
    (maskLeftAfter s).getLsbD s.cfg.lfk = true := by
  rw [getLsbD_maskLeftAfter, pressed_of_cycleLeft_ne_zero hlayer, Bool.true_and]
  by_cases hchange : cycleLeft s = s.layerL
  · rw [h (hchange ▸ hlayer), Bool.or_true]
  · rw [bne_iff_ne.mpr hchange, Bool.true_or]

theorem FunctionKeyBlocked.synCycle (h : FunctionKeyBlocked s) : FunctionKeyBlocked (synCycle s) := by
  unfold FunctionKeyBlocked
  rw [synCycle_layerL, synCycle_maskL, synCycle_cfg]
  exact h.blockedAfter

theorem FunctionKeyBlocked.step (h : FunctionKeyBlocked s) (ht : step s = .next t) : FunctionKeyBlocked t := by
  by_cases hnext : CycleNext s
  · obtain ⟨rest, rfl⟩ := step_cycle hnext ht
    have hwaiting : FunctionKeyBlocked (s.setHost rest) := h
    exact hwaiting.synCycle
  · have hkept := step_keeps_synthesizer hnext ht
    have hlayer : t.layerL = s.layerL := hkept .layerL (by simp)
    have hmask : t.maskL = s.maskL := hkept .maskL (by simp)
    unfold FunctionKeyBlocked
    rw [hlayer, hmask, configurationNeverChanges s t ht]
    exact h

/-- A pressed function key selects layer 1: the cycle changes to it, or the key was blocked before. -/
theorem FunctionKeyBlocked.not_emitted (h : FunctionKeyBlocked s) : emitsLeft s s.cfg.lfk = false := by
  refine emitsLeft_eq_false fun hpressed => ?_
  have hone : cycleLeft s = 1 := leftLayer_of_pressed hpressed
  by_cases hchange : cycleLeft s = s.layerL
  · exact .inr (h (by rw [← hchange, hone]; decide))
  · exact .inl hchange

end Sys2Proof
end

/-! ### Settled: the left function key's own layout entries -/

section
namespace Sys2Proof
open Sys2Proof.Machine

/-- Settles O44: the stored left layer is 0 after reset, each step keeps the key blocked, and a blocked key emits
nothing. -/
theorem functionKeyNeverEmitted : Obligations.FunctionKeyNeverEmitted :=
  ⟨fun _ hne => absurd rfl hne, fun _ _ h ht => h.step ht, fun _ _ h => h.not_emitted⟩

end Sys2Proof
end

/-! ### The reports of a cycle, slot by slot (42_report_buffer.md R130 to R132, 43_synthesizer.md R151) -/

section
namespace Sys2Proof.Machine.ReportBuffer

variable {w cap : Nat} {sentinel : BitVec w} {codes : List (BitVec w)} {b : ReportBuffer w}

theorem afterCycle_len (hcap : cap ≤ 127) : (b.afterCycle cap sentinel codes).len.toNat = min codes.length cap := by
  rw [afterCycle, tailFilled_len, pushes_clear_len hcap]

theorem afterCycle_slot_length (hs : b.slot.length = cap) : (b.afterCycle cap sentinel codes).slot.length = cap :=
  (cycleBuffer_slot_length ..).trans hs

/-- Below the new length stand the pushed codes in order. -/
theorem afterCycle_slot_of_lt (hcap : cap ≤ 127) (hs : b.slot.length = cap) {i : Nat} (hi : i < min codes.length cap) :
    (b.afterCycle cap sentinel codes).slot[i]? = codes[i]? := by
  have hlen := pushes_clear_len hcap codes b
  rw [afterCycle, tailFilled_slot _ _ (by simp [hs]), if_neg (by omega), pushes_clear_slot hcap codes hs, if_pos hi]

/-- From the new length up stands the sentinel if the report got shorter, and what stood there before otherwise. -/
theorem afterCycle_slot_of_ge (hcap : cap ≤ 127) (hs : b.slot.length = cap) {i : Nat} (hi : min codes.length cap ≤ i)
    (hicap : i < cap) : (b.afterCycle cap sentinel codes).slot[i]? =
      if min codes.length cap < b.len.toNat then some sentinel else b.slot[i]? := by
  rw [afterCycle, tailFilled_slot _ _ (by simp [hs]), pushes_clear_len hcap, pushes_clear_slot hcap codes hs,
    if_neg (Nat.not_lt.mpr hi)]
  simp only [hi, hicap, and_true]

/-- The report: the pushed codes in order, cut at the capacity. -/
theorem afterCycle_report (hcap : cap ≤ 127) (hs : b.slot.length = cap) :
    (b.afterCycle cap sentinel codes).slot.take (b.afterCycle cap sentinel codes).len.toNat = codes.take cap := by
  rw [afterCycle_len hcap]
  refine List.ext_getElem? fun i => ?_
  rw [List.getElem?_take, List.getElem?_take]
  by_cases hi : i < min codes.length cap
  · rw [if_pos hi, if_pos (by omega), afterCycle_slot_of_lt hcap hs hi]
  · rw [if_neg hi]
    split
    next => exact (List.getElem?_eq_none (by omega)).symm
    next => rfl

/-- A second cycle with the same codes finds the length it reaches again, so it fills nothing and writes over each
code the same code. -/
theorem afterCycle_again (hcap : cap ≤ 127) (hs : b.slot.length = cap) :
    (b.afterCycle cap sentinel codes).afterCycle cap sentinel codes = b.afterCycle cap sentinel codes := by
  have hs' : (b.afterCycle cap sentinel codes).slot.length = cap := afterCycle_slot_length hs
  have hlen : (b.afterCycle cap sentinel codes).len.toNat = min codes.length cap := afterCycle_len hcap
  refine eq_of_len_of_slot (BitVec.eq_of_toNat_eq ?len) (List.ext_getElem? fun i => ?slot)
  case len => exact (afterCycle_len hcap).trans hlen.symm
  case slot =>
    by_cases hicap : i < cap
    · by_cases hi : i < min codes.length cap
      · rw [afterCycle_slot_of_lt hcap hs' hi, afterCycle_slot_of_lt hcap hs hi]
      · rw [afterCycle_slot_of_ge hcap hs' (Nat.not_lt.mp hi) hicap, if_neg (hlen ▸ Nat.lt_irrefl _)]
    · rw [List.getElem?_eq_none (by rw [afterCycle_slot_length hs']; omega), List.getElem?_eq_none (by omega)]

end Sys2Proof.Machine.ReportBuffer
end

/-! ### What a cycle pushes depends only on the configuration, the matrices and the masks that it leaves -/

section
namespace Sys2Proof
open Sys2Proof.Machine

/-- A cycle from `s` and one from `s'` see the same configuration and matrices and leave the same positions blocked: all
that decides which codes are pushed (R147 to R150). -/
structure SameCycleView (s s' : State) : Prop where
  cfg   : s'.cfg = s.cfg
  left  : leftMatrix s' = leftMatrix s
  right : rightMatrix s' = rightMatrix s
  maskL : maskLeftAfter s' = maskLeftAfter s
  maskR : maskRightAfter s' = maskRightAfter s

variable {s s' : State}

theorem cycleLeft_congr (hcfg : s'.cfg = s.cfg) (hleft : leftMatrix s' = leftMatrix s) :
    cycleLeft s' = cycleLeft s := by
  rw [cycleLeft, hcfg, hleft, cycleLeft]

theorem cycleRight_congr (hcfg : s'.cfg = s.cfg) (hleft : leftMatrix s' = leftMatrix s)
    (hright : rightMatrix s' = rightMatrix s) : cycleRight s' = cycleRight s := by
  rw [cycleRight, hcfg, cycleLeft_congr hcfg hleft, hright, cycleRight]

theorem SameCycleView.leftEntries_eq (h : SameCycleView s s') : leftEntries s' = leftEntries s := by
  have hemits : emitsLeft s' = emitsLeft s := funext fun p => by rw [emitsLeft_eq, h.left, h.maskL, emitsLeft_eq]
  rw [leftEntries, hemits, h.cfg, cycleLeft_congr h.cfg h.left, leftEntries]

theorem SameCycleView.rightEntries_eq (h : SameCycleView s s') : rightEntries s' = rightEntries s := by
  have hemits : emitsRight s' = emitsRight s := funext fun p => by rw [emitsRight_eq, h.right, h.maskR, emitsRight_eq]
  rw [rightEntries, hemits, h.cfg, cycleRight_congr h.cfg h.left h.right, rightEntries]

theorem SameCycleView.comboCodes_eq (h : SameCycleView s s') : comboCodes s' = comboCodes s := by
  rw [comboCodes, h.cfg, cycleLeft_congr h.cfg h.left, cycleRight_congr h.cfg h.left h.right, h.left, h.right,
    h.maskL, h.maskR, comboCodes]

theorem SameCycleView.cyclePrimary_eq (h : SameCycleView s s') : cyclePrimary s' = cyclePrimary s := by
  rw [cyclePrimary, h.leftEntries_eq, h.rightEntries_eq, h.comboCodes_eq, cyclePrimary]

theorem SameCycleView.cycleSecondary_eq (h : SameCycleView s s') : cycleSecondary s' = cycleSecondary s := by
  rw [cycleSecondary, h.leftEntries_eq, h.rightEntries_eq, cycleSecondary]

/-- With the same stored layers and masks as well, two cycles see the same. -/
theorem sameCycleView_of_operands (hcfg : s'.cfg = s.cfg) (hleft : leftMatrix s' = leftMatrix s)
    (hright : rightMatrix s' = rightMatrix s) (hlayerL : s'.layerL = s.layerL) (hlayerR : s'.layerR = s.layerR)
    (hmaskL : s'.maskL = s.maskL) (hmaskR : s'.maskR = s.maskR) : SameCycleView s s' where
  cfg := hcfg
  left := hleft
  right := hright
  maskL := by rw [maskLeftAfter, cycleLeft_congr hcfg hleft, hleft, hlayerL, hmaskL, maskLeftAfter]
  maskR := by rw [maskRightAfter, cycleRight_congr hcfg hleft hright, hright, hlayerR, hmaskR, maskRightAfter]

/-! A cycle repeated at once. -/

theorem leftMatrix_synCycle (s : State) : leftMatrix (synCycle s) = leftMatrix s := by
  rw [leftMatrix, synCycle_din, leftMatrix]

theorem rightMatrix_synCycle (s : State) : rightMatrix (synCycle s) = rightMatrix s := by
  rw [rightMatrix, bwValue_congr (synCycle_cfg s) (synCycle_bw s), rightMatrix]

theorem cycleLeft_synCycle (s : State) : cycleLeft (synCycle s) = cycleLeft s :=
  cycleLeft_congr (synCycle_cfg s) (leftMatrix_synCycle s)

theorem cycleRight_synCycle (s : State) : cycleRight (synCycle s) = cycleRight s :=
  cycleRight_congr (synCycle_cfg s) (leftMatrix_synCycle s) (rightMatrix_synCycle s)

/-- The repeat computes the layer that is stored, so it snapshots nothing, and no blocked position has been released. -/
theorem maskLeftAfter_synCycle (s : State) : maskLeftAfter (synCycle s) = maskLeftAfter s := by
  apply BitVec.eq_of_getLsbD_eq
  intro p _
  rw [getLsbD_maskLeftAfter, leftMatrix_synCycle, cycleLeft_synCycle, synCycle_layerL, synCycle_maskL, bne_self_eq_false,
    Bool.false_or, getLsbD_maskLeftAfter, ← Bool.and_assoc, Bool.and_self]

theorem maskRightAfter_synCycle (s : State) : maskRightAfter (synCycle s) = maskRightAfter s := by
  apply BitVec.eq_of_getLsbD_eq
  intro p _
  rw [getLsbD_maskRightAfter, rightMatrix_synCycle, cycleRight_synCycle, synCycle_layerR, synCycle_maskR,
    bne_self_eq_false, Bool.false_or, getLsbD_maskRightAfter, ← Bool.and_assoc, Bool.and_self]

theorem sameCycleView_synCycle (s : State) : SameCycleView s (synCycle s) where
  cfg := synCycle_cfg s
  left := leftMatrix_synCycle s
  right := rightMatrix_synCycle s
  maskL := maskLeftAfter_synCycle s
  maskR := maskRightAfter_synCycle s

theorem synCycle_synCycle {s : State} (hvalid : configValid s.cfg = true) (hinv : BlockInv s) :
    synCycle (synCycle s) = synCycle s := by
  obtain ⟨hcapP, hcapS⟩ := caps_of_valid hvalid
  have hview := sameCycleView_synCycle s
  have hP : (synCycle (synCycle s)).rbP = (synCycle s).rbP := by
    rw [synCycle_rbP, hview.cfg, hview.cyclePrimary_eq, synCycle_rbP, ReportBuffer.afterCycle_again hcapP hinv.slotsP]
  have hS : (synCycle (synCycle s)).rbS = (synCycle s).rbS := by
    rw [synCycle_rbS, hview.cfg, hview.cycleSecondary_eq, synCycle_rbS, ReportBuffer.afterCycle_again hcapS hinv.slotsS]
  have hlayerL : (synCycle (synCycle s)).layerL = (synCycle s).layerL := by
    rw [synCycle_layerL, cycleLeft_synCycle, synCycle_layerL]
  have hlayerR : (synCycle (synCycle s)).layerR = (synCycle s).layerR := by
    rw [synCycle_layerR, cycleRight_synCycle, synCycle_layerR]
  have hmaskL : (synCycle (synCycle s)).maskL = (synCycle s).maskL := by
    rw [synCycle_maskL, hview.maskL, synCycle_maskL]
  have hmaskR : (synCycle (synCycle s)).maskR = (synCycle s).maskR := by
    rw [synCycle_maskR, hview.maskR, synCycle_maskR]
  rw [synCycle_frame (synCycle s), hP, hS, hlayerL, hlayerR, hmaskL, hmaskR]

end Sys2Proof
end

/-! ### A blocked position along a run (43_synthesizer.md R153 (c)) -/

section
namespace Sys2Proof
open Sys2Proof.Machine

variable {s t : State} {p : Nat}

/-- A cycle in which the left layer changes blocks every pressed left position. -/
theorem step_blocks_left (hnext : CycleNext s) (ht : step s = .next t) (hchange : cycleLeft s ≠ s.layerL)
    (hpressed : (leftMatrix s).getLsbD p = true) : t.maskL.getLsbD p = true := by
  rw [(step_cycle_masks hnext ht).1, getLsbD_maskLeftAfter, hpressed, bne_iff_ne.mpr hchange]
  rfl

/-- A cycle in which the right layer changes blocks every pressed right position. -/
theorem step_blocks_right (hnext : CycleNext s) (ht : step s = .next t) (hchange : cycleRight s ≠ s.layerR)
    (hpressed : (rightMatrix s).getLsbD p = true) : t.maskR.getLsbD p = true := by
  rw [(step_cycle_masks hnext ht).2, getLsbD_maskRightAfter, hpressed, bne_iff_ne.mpr hchange]
  rfl

/-- A blocked left position stays blocked by every step but a cycle in which it is released. -/
theorem step_keeps_blocked_left (ht : step s = .next t) (hpressed : CycleNext s → (leftMatrix s).getLsbD p = true)
    (hblocked : s.maskL.getLsbD p = true) : t.maskL.getLsbD p = true := by
  by_cases hnext : CycleNext s
  · rw [(step_cycle_masks hnext ht).1, getLsbD_maskLeftAfter, hpressed hnext, hblocked, Bool.or_true, Bool.and_true]
  · have hmask : t.maskL = s.maskL := step_keeps_synthesizer hnext ht .maskL (by simp)
    rw [hmask, hblocked]

/-- A blocked right position stays blocked by every step but a cycle in which it is released. -/
theorem step_keeps_blocked_right (ht : step s = .next t) (hpressed : CycleNext s → (rightMatrix s).getLsbD p = true)
    (hblocked : s.maskR.getLsbD p = true) : t.maskR.getLsbD p = true := by
  by_cases hnext : CycleNext s
  · rw [(step_cycle_masks hnext ht).2, getLsbD_maskRightAfter, hpressed hnext, hblocked, Bool.or_true, Bool.and_true]
  · have hmask : t.maskR = s.maskR := step_keeps_synthesizer hnext ht .maskR (by simp)
    rw [hmask, hblocked]

/-- What the first step of a run blocks and every step keeps blocked is silent in every state of the run, if it is
silent in the first state and wherever it is blocked. -/
theorem silent_along_run {blocked silent : State → Prop} {run : Nat → State} {n : Nat} (hstart : silent (run 0))
    (hfirst : blocked (run 1)) (hkeep : ∀ k, k ≤ n → blocked (run k) → blocked (run (k + 1)))
    (hsilent : ∀ s, blocked s → silent s) : ∀ k, k ≤ n → silent (run k) := by
  have hblocked : ∀ k, k ≤ n → blocked (run (k + 1)) := by
    intro k hk
    induction k with
    | zero => exact hfirst
    | succ k ih => exact hkeep (k + 1) hk (ih (by omega))
  intro k hk
  cases k with
  | zero => exact hstart
  | succ k => exact hsilent _ (hblocked k (by omega))

end Sys2Proof
end

/-! ### SYN.READ (43_synthesizer.md R152) -/

section
namespace Sys2Proof.Machine

theorem exec_synRead_layerL (s : State) :
    exec (.synRead .layerL) s = .next (s.setDout (s.layerL.setWidth 64)) := rfl

theorem exec_synRead_layerR (s : State) :
    exec (.synRead .layerR) s = .next (s.setDout (s.layerR.setWidth 64)) := rfl

theorem exec_synRead_maskL (s : State) :
    exec (.synRead .maskL) s = .next (s.setDout (s.maskL.setWidth 64)) := rfl

theorem exec_synRead_maskR (s : State) :
    exec (.synRead .maskR) s = .next (s.setDout (s.maskR.setWidth 64)) := rfl

/-- The bits of a mask zero-extended into DOUT. -/
theorem getLsbD_mask_setWidth {n : Nat} (mask : BitVec n) {j : Nat} (hj : j < 64) :
    (mask.setWidth 64 : Data).getLsbD j = (decide (j < n) && mask.getLsbD j) := by
  rw [BitVec.getLsbD_setWidth, decide_eq_true hj, Bool.true_and]
  by_cases hn : j < n
  · rw [decide_eq_true hn, Bool.true_and]
  · rw [BitVec.getLsbD_of_ge mask j (Nat.not_lt.mp hn), Bool.and_false]

end Sys2Proof.Machine
end

/-! ### Settled: the synthesizer -/

section
namespace Sys2Proof
open Sys2Proof.Machine

/-- Settles O39: the override, the first pressed key past the released ones, and the end of the list. -/
theorem rightLayerFirstMatchWins : Obligations.RightLayerFirstMatchWins := by
  refine ⟨rightLayer_override, fun c ll right before after k hll hrfk hbefore hk => ?_, fun c ll right hll hnone => ?_⟩
  · rw [rightLayer_of_ne_one hll, hrfk, firstKeyLayer_append_of_released hbefore, firstKeyLayer_cons_of_pressed hk]
  · rw [rightLayer_of_ne_one hll, ← List.append_nil c.rfk, firstKeyLayer_append_of_released hnone, firstKeyLayer]

/-- Settles O40: each buffer is cleared and takes the codes of its kind. -/
theorem cycleReportsCodesInOrder : Obligations.CycleReportsCodesInOrder := by
  intro s hallowed hinv
  obtain ⟨hcapP, hcapS⟩ := caps_of_valid ((cycleAllowed_iff s.cfg).mp hallowed).1
  refine ⟨_, exec_synCycle hallowed, ?_⟩
  rw [synCycle_rbP, synCycle_rbS]
  exact ⟨ReportBuffer.afterCycle_len hcapP, ReportBuffer.afterCycle_report hcapP hinv.slotsP,
    ReportBuffer.afterCycle_len hcapS, ReportBuffer.afterCycle_report hcapS hinv.slotsS⟩

/-- Settles O41, from the slots at or above the new length. -/
theorem cycleFillsShorterReport : Obligations.CycleFillsShorterReport := by
  intro s t hinv h
  obtain ⟨hallowed, rfl⟩ := execSynCycle_cases h
  obtain ⟨hcapP, hcapS⟩ := caps_of_valid ((cycleAllowed_iff s.cfg).mp hallowed).1
  rw [synCycle_rbP, synCycle_rbS, ReportBuffer.afterCycle_len hcapP, ReportBuffer.afterCycle_len hcapS]
  exact ⟨fun i => ReportBuffer.afterCycle_slot_of_ge hcapP hinv.slotsP,
    fun i => ReportBuffer.afterCycle_slot_of_ge hcapS hinv.slotsS⟩

/-- Settles O38. -/
theorem leftLayerFollowsFunctionKey : Obligations.LeftLayerFollowsFunctionKey := by
  intro s hvalid
  rw [← getLsbD_leftMatrix s (lfk_lt_of_valid hvalid)]
  exact ⟨leftLayer_of_pressed, leftLayer_of_released⟩

/-- Settles O42: a cycle in closed form, its masks read bit by bit. -/
theorem cycleUpdatesLayersAndMasks : Obligations.CycleUpdatesLayersAndMasks := by
  intro s hallowed
  obtain ⟨hvalid, hW⟩ := (cycleAllowed_iff s.cfg).mp hallowed
  refine ⟨_, exec_synCycle hallowed, synCycle_layerL s, synCycle_layerR s, fun p hp => ?maskL, fun p hp => ?maskR,
    fun hkey => ?override, synCycle_frame s⟩
  case maskL => rw [synCycle_maskL, getLsbD_maskLeftAfter, getLsbD_leftMatrix s hp]
  case maskR => rw [synCycle_maskR, getLsbD_maskRightAfter, getLsbD_rightMatrix hW hp]
  case override =>
    have hone : cycleLeft s = 1 := (leftLayerFollowsFunctionKey s hvalid).1 hkey
    rw [synCycle_layerL, synCycle_layerR, cycleRight, hone]
    exact ⟨rfl, rightLayer_override s.cfg _⟩

/-- Settles O43: the first cycle blocks the position, and no later step unblocks it before it is released. -/
theorem blockedUntilReleased : Obligations.BlockedUntilReleased := by
  intro run n hrun hfirst
  refine ⟨fun p _ hchange hpressed => ?left, fun p _ hchange hpressed => ?right⟩
  case left =>
    exact fun k hk _ => silent_along_run (blocked := fun s => s.maskL.getLsbD p = true)
      (silent := fun s => emitsLeft s p = false) (emitsLeft_eq_false fun _ => .inl hchange)
      (step_blocks_left hfirst (hrun 0 n.zero_le) hchange (hpressed 0 n.zero_le hfirst))
      (fun j hj => step_keeps_blocked_left (hrun j hj) (hpressed j hj))
      (fun _ hblocked => emitsLeft_eq_false fun _ => .inr hblocked) k hk
  case right =>
    exact fun k hk _ => silent_along_run (blocked := fun s => s.maskR.getLsbD p = true)
      (silent := fun s => emitsRight s p = false) (emitsRight_eq_false fun _ => .inl hchange)
      (step_blocks_right hfirst (hrun 0 n.zero_le) hchange (hpressed 0 n.zero_le hfirst))
      (fun j hj => step_keeps_blocked_right (hrun j hj) (hpressed j hj))
      (fun _ hblocked => emitsRight_eq_false fun _ => .inr hblocked) k hk

/-- Settles O46: the operands give both cycles the same view, so they push the same codes into equal buffers. -/
theorem cycleReadsOnlyItsOperands : Obligations.CycleReadsOnlyItsOperands := by
  intro s s' hallowed hcfg hdin hbw hP hS hlayerL hlayerR hmaskL hmaskR
  have hallowed' : cycleAllowed s'.cfg = true := hcfg ▸ hallowed
  have hW := ((cycleAllowed_iff s.cfg).mp hallowed).2
  have hleft : leftMatrix s = leftMatrix s' := by rw [leftMatrix_eq_extract, hdin, leftMatrix_eq_extract]
  have hright : rightMatrix s = rightMatrix s' := by
    rw [rightMatrix_eq_extract hW, hbw, rightMatrix_eq_extract (hcfg ▸ hW)]
  have hview := sameCycleView_of_operands hcfg hleft hright hlayerL hlayerR hmaskL hmaskR
  refine ⟨_, _, exec_synCycle hallowed, exec_synCycle hallowed', ?_⟩
  simp only [synCycle_rbP, synCycle_rbS, synCycle_layerL, synCycle_layerR, synCycle_maskL, synCycle_maskR]
  exact ⟨by rw [hP, hcfg, hview.cyclePrimary_eq], by rw [hS, hcfg, hview.cycleSecondary_eq], cycleLeft_congr hcfg hleft,
    cycleRight_congr hcfg hleft hright, hview.maskL, hview.maskR⟩

/-- Settles O47: a repeat of the cycle finds the layers, the masks and the lengths that it leaves. -/
theorem repeatedCycleChangesNothing : Obligations.RepeatedCycleChangesNothing := by
  intro s t hinv h
  obtain ⟨hallowed, rfl⟩ := execSynCycle_cases h
  rw [exec_synCycle (by rwa [synCycle_cfg]), synCycle_synCycle ((cycleAllowed_iff s.cfg).mp hallowed).1 hinv]

/-- Settles O49: the four values of WHICH. -/
theorem synReadShowsLayersAndMasks : Obligations.SynReadShowsLayersAndMasks :=
  ⟨⟨rfl, rfl, rfl, rfl⟩, fun s =>
    ⟨⟨_, exec_synRead_layerL s, BitVec.toNat_setWidth_of_le (by decide), rfl⟩,
      ⟨_, exec_synRead_layerR s, BitVec.toNat_setWidth_of_le (by decide), rfl⟩,
      ⟨_, exec_synRead_maskL s, fun _ => getLsbD_mask_setWidth s.maskL, rfl⟩,
      ⟨_, exec_synRead_maskR s, fun _ => getLsbD_mask_setWidth s.maskR, rfl⟩⟩⟩

end Sys2Proof
end

/-! ### STAT.READ (44_status.md R170) -/

section
namespace Sys2Proof.Machine

theorem exec_statRead (s : State) : exec .statRead s = .next (s.setDout (s.err.setWidth 64)) := rfl

/-- ERR zero-extended into DOUT keeps each of its bits. -/
theorem getLsbD_err_setWidth (err : BitVec 2) {j : Nat} (hj : j < 64) :
    (err.setWidth 64 : Data).getLsbD j = err.getLsbD j := by
  rw [BitVec.getLsbD_setWidth, decide_eq_true hj, Bool.true_and]

/-- Above ILL and IDX, ERR zero-extended into DOUT is 0. -/
theorem err_setWidth_above (err : BitVec 2) : (err.setWidth 64 : Data).extractLsb' 2 62 = 0 := by
  rw [BitVec.extractLsb'_setWidth_of_le (by decide)]
  apply BitVec.eq_of_getLsbD_eq
  intro j _
  rw [BitVec.getLsbD_extractLsb', BitVec.getLsbD_of_ge err _ (by omega), Bool.and_false]
  exact BitVec.getLsbD_zero.symm

end Sys2Proof.Machine
end

/-! ### Settled: the status command -/

section
namespace Sys2Proof
open Sys2Proof.Machine

/-- Settles O50: DOUT takes ERR zero-extended, and nothing else changes. -/
theorem statReadShowsErr : Obligations.StatReadShowsErr :=
  ⟨rfl, fun s => ⟨_, exec_statRead s, getLsbD_err_setWidth s.err (by decide), getLsbD_err_setWidth s.err (by decide),
    err_setWidth_above s.err, rfl⟩⟩

end Sys2Proof
end

/-! ### Layout lookups under a valid configuration (60_exceptions.md R188) -/

section
namespace Sys2Proof.Machine

/-- A layout table whose rows all have `n` entries has one at every position below `n` of each of its layers. -/
theorem layout_entry_exists {table : List (List Entry)} {n layer p : Nat} (hrows : ∀ row ∈ table, row.length = n)
    (hlayer : layer < table.length) (hp : p < n) : (table[layer]?.bind fun row => row[p]?).isSome = true := by
  have hrow : p < table[layer].length := (hrows _ (List.getElem_mem hlayer)).symm ▸ hp
  rw [List.getElem?_eq_getElem hlayer, Option.bind_some, List.getElem?_eq_getElem hrow, Option.isSome_some]

theorem lookupLeft_isSome {c : Config} (hvalid : configValid c = true) {layer : Layer} (hlayer : layer.toNat < 2)
    {p : Nat} (hp : p < 30) : (lookupLeft c layer p).isSome = true := by
  obtain ⟨-, -, -, hlayouts⟩ := (configValid_iff c).mp hvalid
  obtain ⟨⟨hlen, hrows⟩, -⟩ := (layoutsValid_iff c).mp hlayouts
  exact layout_entry_exists hrows (hlen.symm ▸ hlayer) hp

theorem lookupRight_isSome {c : Config} (hvalid : configValid c = true) {layer : Layer} (hlayer : layer.toNat < c.nlR)
    {p : Nat} (hp : p < 29) : (lookupRight c layer p).isSome = true := by
  obtain ⟨-, -, -, hlayouts⟩ := (configValid_iff c).mp hvalid
  obtain ⟨-, hlen, hrows⟩ := (layoutsValid_iff c).mp hlayouts
  exact layout_entry_exists hrows (hlen.symm ▸ hlayer) hp

/-- The left layer of a cycle is one of the two that `LAYOUT_L` has (R143). -/
theorem cycleLeft_lt (s : State) : (cycleLeft s).toNat < 2 := by
  obtain h | h : cycleLeft s = 0 ∨ cycleLeft s = 1 := leftLayer_low ..
  all_goals rw [h]; decide

end Sys2Proof.Machine
end

/-! ### Which commands change ERR, and how (60_exceptions.md R182 to R185) -/

section
namespace Sys2Proof
open Sys2Proof.Machine

variable {i : Instr} {s t : State}

/-- The rows of R185 that can raise IDX. -/
theorem indexOutOfRange_cases (h : indexOutOfRange i s = true) :
    (∃ idx, i = .bwGet idx ∧ s.cfg.bwW ≤ idx.toNat) ∨ (∃ idx val, i = .bwSet idx val ∧ s.cfg.bwW ≤ idx.toNat) ∨
      ∃ sel ix, i = .rbRead sel ix ∧ capOf s.cfg sel ≤ ix.toNat := by
  cases i with
  | bwGet idx => exact .inl ⟨idx, rfl, of_decide_eq_true h⟩
  | bwSet idx val => exact .inr (.inl ⟨idx, val, rfl, of_decide_eq_true h⟩)
  | rbRead sel ix => exact .inr (.inr ⟨sel, ix, rfl, of_decide_eq_true h⟩)
  | _ => cases h

/-- A command whose index is out of range completes by raising IDX (R182). -/
theorem exec_of_indexOutOfRange (h : indexOutOfRange i s = true) : exec i s = .next (raise .idx s) := by
  obtain ⟨idx, rfl, hidx⟩ | ⟨idx, val, rfl, hidx⟩ | ⟨sel, ix, rfl, hix⟩ := indexOutOfRange_cases h
  · exact exec_bwGet_of_ge hidx
  · exact exec_bwSet_of_ge hidx
  · exact exec_rbRead_of_ge hix

/-- Every other command leaves ERR: only the three of R185 have a branch that writes it. -/
theorem exec_err_of_index_in_range (hrange : indexOutOfRange i s = false) (h : exec i s = .next t) :
    t.err = s.err := by
  cases i with
  | bwGet idx =>
    obtain ⟨hout, -⟩ | ⟨-, rfl⟩ := execBwGet_cases h
    · exact absurd hout (of_decide_eq_false hrange)
    · rfl
  | bwSet idx val =>
    obtain ⟨hout, -⟩ | ⟨-, rfl⟩ := execBwSet_cases h
    · exact absurd hout (of_decide_eq_false hrange)
    · rfl
  | rbRead sel ix =>
    obtain ⟨hout, -⟩ | ⟨-, v, -, rfl⟩ := execRbRead_cases h
    · exact absurd hout (of_decide_eq_false hrange)
    · rfl
  | frRxb b => obtain ⟨-, rfl⟩ | ⟨-, -, rfl⟩ | ⟨-, -, -, rfl⟩ | ⟨-, -, rfl⟩ := execFrRxb_cases h <;> rfl
  | synCycle =>
    obtain ⟨-, rfl⟩ := execSynCycle_cases h
    rw [synCycle_eq]
  | rbClear sel | rbPush sel code | rbFill sel ix code => cases sel <;> cases h <;> rfl
  | synRead which => cases which <;> cases h <;> rfl
  | bwNew | bwGetraw | bwSetraw | bwClear | bwLdrx | cdEnc | cdDec | frRdval | frStat | rbLen | statRead =>
    cases h
    rfl

/-- Everything a command that completes can do to ERR (R185). -/
theorem exec_err_cases (h : exec i s = .next t) :
    (indexOutOfRange i s = true ∧ t = raise .idx s) ∨ (indexOutOfRange i s = false ∧ t.err = s.err) := by
  cases hrange : indexOutOfRange i s with
  | true =>
    rw [exec_of_indexOutOfRange hrange] at h
    cases h
    exact .inl ⟨rfl, rfl⟩
  | false => exact .inr ⟨rfl, exec_err_of_index_in_range hrange h⟩

theorem exec_err (h : exec i s = .next t) :
    if indexOutOfRange i s then SetsOnlyErrBit 1 s t else t.err = s.err := by
  obtain ⟨hrange, rfl⟩ | ⟨hrange, herr⟩ := exec_err_cases h
  · rw [if_pos hrange]
    exact raise_idx s
  · rwa [if_neg (Bool.eq_false_iff.mp hrange)]

/-- Raising an error ors a bit into ERR, so the bits that are set stay set. -/
theorem raise_keeps_err_bit (e : ErrFlag) {k : Nat} (hk : s.err.getLsbD k = true) :
    (raise e s).err.getLsbD k = true := by
  rw [raise, State.setErr_err, setErrFlag, BitVec.getLsbD_or, hk, Bool.true_or]

theorem exec_keeps_err_bit {k : Nat} (h : exec i s = .next t) (hk : s.err.getLsbD k = true) :
    t.err.getLsbD k = true := by
  obtain ⟨-, rfl⟩ | ⟨-, herr⟩ := exec_err_cases h
  · exact raise_keeps_err_bit .idx hk
  · rwa [herr]

end Sys2Proof
end

/-! ### Settled: errors and exhaustive lookups -/

section
namespace Sys2Proof
open Sys2Proof.Machine

/-- Settles O7: `issue` of an illegal word is `raise` of ILL. -/
theorem illegalWordRaisesIll : Obligations.IllegalWordRaisesIll :=
  fun s _ _ hd => ⟨_, issue_of_illegal s hd, raise_ill s⟩

/-- Settles O48: both tables have full rows, and a cycle's layers are among those the tables have. -/
theorem layoutLookupsExist : Obligations.LayoutLookupsExist :=
  fun s hvalid => ⟨fun _ => lookupLeft_isSome hvalid (cycleLeft_lt s),
    fun _ => lookupRight_isSome hvalid (rightLayer_lt hvalid ..)⟩

/-- Settles O51, by the cases of a step: ERR is left alone or has a bit ored into it. -/
theorem errBitsAreSticky : Obligations.ErrBitsAreSticky := by
  intro s t k h hk
  obtain ⟨-, ⟨-, rfl⟩ | ⟨v, rest, -, rfl⟩ | ⟨w, rest, -, ⟨e, -, rfl⟩ | ⟨i, -, hexec⟩⟩⟩ := step_cases h
  · exact hk
  · exact hk
  · exact raise_keeps_err_bit .ill hk
  · exact exec_keeps_err_bit hexec hk

/-- Settles O52: an illegal word, a command with its index out of range, and any other command. -/
theorem errorsRaisedExactly : Obligations.ErrorsRaisedExactly := by
  refine ⟨fun s t w h => ?_, fun i s hrange => ⟨_, exec_of_indexOutOfRange hrange⟩⟩
  cases hd : decode w with
  | error e =>
    rw [issue_of_illegal s hd] at h
    cases h
    exact raise_ill s
  | ok i =>
    rw [issue_of_legal s hd] at h
    exact exec_err h

end Sys2Proof
end

/-! ### Steps that perform the host's list of commands (20_memory.md R62, log entry 3) -/

section
namespace Sys2Proof
open Sys2Proof.Machine

variable {s t : State}

theorem sameReg_setHost (r : Reg) (s : State) (rest : List HostAction) : SameReg r (s.setHost rest) s := by
  cases r with
  | len sel | slots sel => cases sel <;> rfl
  | _ => rfl

/-- A command neither reads nor writes the host's list: the list is no register of R41's table. -/
theorem exec_setHost {i : Instr} (h : exec i s = .next t) (rest : List HostAction) :
    exec i (s.setHost rest) = .next (t.setHost rest) := by
  have hagree := fun r => sameReg_setHost r s rest
  obtain ⟨t', ht', hkept⟩ := exec_keeps_agreement (s' := s.setHost rest) h rfl fun r _ => hagree r
  have hw := exec_writesOnly i ht'
  have heq : t' = t.setHost rest :=
    eq_of_sameReg (hw.cfg.trans (exec_writesOnly i h).cfg.symm) hw.host
      fun r => (hkept r (hagree r)).trans (sameReg_setHost r t rest).symm
  rw [ht', heq]

theorem core_run_succ (h : step s = .next t) (n : Nat) : core.run (n + 1) s = core.run n t := by
  have hcore : core.step s = .next t := h
  simp only [Host.Core.run, hcore]

/-- The step in which the host issues a command with a word performs that command. -/
theorem step_issues {i : Instr} (hvalid : configValid s.cfg = true) (hwf : i.wellFormed = true)
    (h : exec i s = .next t) (rest : List HostAction) :
    step (s.setHost (issues i :: rest)) = .next (t.setHost rest) := by
  rw [step_of_command (s := s.setHost (issues i :: rest)) hvalid rfl, issue_of_legal _ (decodeOfEncode i hwf)]
  exact exec_setHost h rest

/-- Commands that complete: the first does, and the others do from where it leads. -/
theorem runCommands_cons_cases {i : Instr} {is : List Instr} (h : runCommands (i :: is) s = .next t) :
    ∃ u, exec i s = .next u ∧ runCommands is u = .next t := by
  rw [runCommands] at h
  cases hexec : exec i s with
  | next u => rw [hexec] at h; exact ⟨u, rfl, h⟩
  | fault r => rw [hexec] at h; cases h
  | refused r => rw [hexec] at h; cases h

theorem runCommands_cfg_host {is : List Instr} (h : runCommands is s = .next t) :
    t.cfg = s.cfg ∧ t.host = s.host := by
  induction is generalizing s with
  | nil => cases h; exact ⟨rfl, rfl⟩
  | cons i is ih =>
    obtain ⟨u, hexec, hrest⟩ := runCommands_cons_cases h
    obtain ⟨hcfg, hhost, -⟩ := exec_writesOnly i hexec
    obtain ⟨hcfg', hhost'⟩ := ih hrest
    exact ⟨hcfg'.trans hcfg, hhost'.trans hhost⟩

/-- The steps in which the host issues commands one after the other run those commands. -/
theorem core_run_issues {is : List Instr} (hvalid : configValid s.cfg = true) (hwf : ∀ i ∈ is, i.wellFormed = true)
    (h : runCommands is s = .next t) (rest : List HostAction) (n : Nat) :
    core.run (is.length + n) (s.setHost (is.map issues ++ rest)) = core.run n (t.setHost rest) := by
  induction is generalizing s with
  | nil =>
    cases h
    rw [List.length_nil, Nat.zero_add]
    rfl
  | cons i is ih =>
    obtain ⟨hi, his⟩ := List.forall_mem_cons.mp hwf
    obtain ⟨u, hexec, hrest⟩ := runCommands_cons_cases h
    have hvalid' : configValid u.cfg = true := (exec_writesOnly i hexec).cfg ▸ hvalid
    rw [List.length_cons, Nat.add_right_comm, List.map_cons, List.cons_append,
      core_run_succ (step_issues hvalid hi hexec _), ih hvalid' his hrest]

theorem core_run_writeDin (hvalid : configValid s.cfg = true) (v : Data) (rest : List HostAction) (n : Nat) :
    core.run (n + 1) (s.setHost (.writeDin v :: rest)) = core.run n ((hostWriteDin v s).setHost rest) :=
  core_run_succ (step_of_writeDin (s := s.setHost (.writeDin v :: rest)) hvalid rfl) n

/-- The host's whole list, where it writes DIN once between commands: as many steps as it has actions run the commands
before the write, the write, and the commands after it. -/
theorem core_run_around_writeDin {before after : List Instr} {b : State} {v : Data}
    (hhost : s.host = before.map issues ++ .writeDin v :: after.map issues) (hvalid : configValid s.cfg = true)
    (hwf : ∀ i ∈ before, i.wellFormed = true) (hwf' : ∀ i ∈ after, i.wellFormed = true)
    (hb : runCommands before (s.setHost []) = .next b) (ht : runCommands after (hostWriteDin v b) = .next t) :
    core.run s.host.length s = .next t := by
  obtain ⟨hcfgB, hhostB⟩ := runCommands_cfg_host hb
  have hvalidB : configValid b.cfg = true := hcfgB ▸ hvalid
  have hhostT : t.host = [] := (runCommands_cfg_host ht).2.trans hhostB
  have hdone : t.setHost [] = t := by
    rw [← hhostT]
    rfl
  have hlength : s.host.length = before.length + (after.length + 1) := by simp [hhost]
  calc core.run s.host.length s
    _ = core.run (before.length + (after.length + 1))
          ((s.setHost []).setHost (before.map issues ++ .writeDin v :: after.map issues)) := by
        rw [← hhost, ← hlength]
        rfl
    _ = core.run (after.length + 1) (b.setHost (.writeDin v :: after.map issues)) :=
        core_run_issues (s := s.setHost []) hvalid hwf hb _ _
    _ = core.run (after.length + 0) ((hostWriteDin v b).setHost (after.map issues ++ [])) := by
        rw [core_run_writeDin hvalidB, List.append_nil, Nat.add_zero]
    _ = core.run 0 (t.setHost []) := core_run_issues (s := hostWriteDin v b) hvalidB hwf' ht [] 0
    _ = .next t := by
        rw [hdone]
        rfl

end Sys2Proof
end

/-! ### The commands of one iteration of the receiving half (70_reset_and_hazards.md R203, R204) -/

section
namespace Sys2Proof
open Sys2Proof.Machine

variable {s : State}

/-- The commands of `reportReads`. -/
def reportReadCommands (c : Config) : List Instr :=
  ((List.range c.capP).map fun i => .rbRead .primary (BitVec.ofNat 7 i)) ++
    (List.range c.capS).map fun i => .rbRead .secondary (BitVec.ofNat 7 i)

theorem reportReads_eq (c : Config) : reportReads c = (reportReadCommands c).map issues := by
  simp [reportReads, reportReadCommands, Function.comp_def]

/-- The commands of an iteration before the host writes DIN: the byte, if there is one, and BW.LDRX. -/
def beforeDin (byte : Option Byte) : List Instr := byte.toList.map .frRxb ++ [.bwLdrx]

/-- The commands of an iteration after the host has written DIN: the cycle and the report. -/
def afterDin (c : Config) : List Instr := .synCycle :: reportReadCommands c

theorem receivingIteration_eq (c : Config) (byte : Option Byte) (left : LeftBits) :
    receivingIteration c byte left =
      (beforeDin byte).map issues ++ .writeDin (left.setWidth 64) :: (afterDin c).map issues := by
  simp [receivingIteration, beforeDin, afterDin, reportReads_eq, Function.comp_def]

theorem ofNat_toNat_of_lt_cap {cap i : Nat} (hcap : cap ≤ 127) (hi : i < cap) : (BitVec.ofNat 7 i).toNat = i :=
  Nat.mod_eq_of_lt (by omega)

/-- Every index of the report's reads is below its buffer's capacity. -/
theorem mem_reportReadCommands {c : Config} (hvalid : configValid c = true) {i : Instr}
    (h : i ∈ reportReadCommands c) : ∃ sel ix, i = .rbRead sel ix ∧ ix.toNat < capOf c sel := by
  obtain ⟨hcapP, hcapS⟩ := caps_of_valid hvalid
  obtain h | h := List.mem_append.mp h
  · obtain ⟨n, hn, rfl⟩ := List.mem_map.mp h
    have hlt := List.mem_range.mp hn
    exact ⟨_, _, rfl, (ofNat_toNat_of_lt_cap hcapP hlt).trans_lt hlt⟩
  · obtain ⟨n, hn, rfl⟩ := List.mem_map.mp h
    have hlt := List.mem_range.mp hn
    exact ⟨_, _, rfl, (ofNat_toNat_of_lt_cap hcapS hlt).trans_lt hlt⟩

/-- Reads of slots that the buffers have complete and write DOUT alone. -/
theorem runCommands_reads {is : List Instr} (hinv : BlockInv s)
    (h : ∀ i ∈ is, ∃ sel ix, i = .rbRead sel ix ∧ ix.toNat < capOf s.cfg sel) :
    ∃ v, runCommands is s = .next (s.setDout v) := by
  induction is generalizing s with
  | nil => exact ⟨s.dout, rfl⟩
  | cons i is ih =>
    obtain ⟨⟨sel, ix, rfl, hix⟩, his⟩ := List.forall_mem_cons.mp h
    obtain ⟨v, hv⟩ := slotData_exists hinv hix
    obtain ⟨v', hv'⟩ := ih (hinv.setDout v) his
    exact ⟨v', (runCommands_cons (exec_rbRead_of_lt hix hv) is).trans hv'⟩

/-- In a state of the invariant the reception of at most one byte completes without an error. -/
theorem runCommands_receive (byte : Option Byte) (hinv : BlockInv s) :
    ∃ t, runCommands (byte.toList.map .frRxb) s = .next t ∧ BlockInv t ∧ t.err = s.err := by
  cases byte with
  | none => exact ⟨s, rfl, hinv, rfl⟩
  | some b =>
    obtain ⟨t, ht⟩ := execFrRxb_completes b hinv.fillLow
    exact ⟨t, runCommands_singleton ht, hinv.execFrRxb ht, exec_err_of_index_in_range (i := .frRxb b) rfl ht⟩

theorem wellFormed_beforeDin (byte : Option Byte) : ∀ i ∈ beforeDin byte, i.wellFormed = true := by
  cases byte <;> simp [beforeDin, Instr.wellFormed]

theorem wellFormed_afterDin {c : Config} (hvalid : configValid c = true) :
    ∀ i ∈ afterDin c, i.wellFormed = true := by
  refine List.forall_mem_cons.mpr ⟨rfl, fun i hi => ?_⟩
  obtain ⟨sel, ix, rfl, -⟩ := mem_reportReadCommands hvalid hi
  rfl

/-- In a state of the invariant the cycle and the reads of its report complete; after the cycle only DOUT is written. -/
theorem runCommands_afterDin (hallowed : cycleAllowed s.cfg = true) (hinv : BlockInv s) :
    ∃ t v, exec .synCycle s = .next t ∧ t.err = s.err ∧ runCommands (afterDin s.cfg) s = .next (t.setDout v) := by
  obtain ⟨hvalid, -⟩ := (cycleAllowed_iff s.cfg).mp hallowed
  have hcycle := exec_synCycle hallowed
  have hreads : ∀ i ∈ reportReadCommands s.cfg, ∃ sel ix, i = .rbRead sel ix ∧
      ix.toNat < capOf (synCycle s).cfg sel := by
    rw [synCycle_cfg]
    exact fun i => mem_reportReadCommands hvalid
  obtain ⟨v, hv⟩ := runCommands_reads (hinv.synCycle hvalid) hreads
  exact ⟨_, v, hcycle, exec_err_of_index_in_range (i := .synCycle) rfl hcycle, (runCommands_cons hcycle _).trans hv⟩

end Sys2Proof
end

/-! ### Settled: one iteration of the receiving half -/

section
namespace Sys2Proof
open Sys2Proof.Machine

/-- Settles O60: the list is the commands before the write of DIN, that write, and the commands after it; each part
completes and keeps the invariant, and of the last part only the cycle writes more than DOUT. -/
theorem receivingIterationCompletes : Obligations.ReceivingIterationCompletes := by
  intro s byte left hallowed hinv hhost
  obtain ⟨hvalid, -⟩ := (cycleAllowed_iff s.cfg).mp hallowed
  obtain ⟨r, hreceive, hinvR, herrR⟩ := runCommands_receive byte (hinv.setHost [])
  have hload := exec_bwLdrx r
  have hcfg : r.cfg = s.cfg := (runCommands_cfg_host hreceive).1
  have hbefore := (runCommands_append hreceive [.bwLdrx]).trans (runCommands_singleton hload)
  obtain ⟨t, v, hcycle, herrT, hafter⟩ :=
    runCommands_afterDin (hcfg ▸ hallowed) ((hinvR.setBw (r.rxValue.setWidth 64)).setDin (left.setWidth 64))
  refine ⟨r, _, t, t.setDout v, hreceive, hload, hcycle, ?run, rfl, herrT.trans herrR⟩
  case run =>
    have hlist := hhost.trans (receivingIteration_eq s.cfg byte left)
    rw [← hcfg] at hlist
    exact core_run_around_writeDin hlist hvalid (wellFormed_beforeDin byte) (wellFormed_afterDin (hcfg ▸ hvalid))
      hbefore hafter

end Sys2Proof
end
